-- ==== Sys2Proof/Word.lean ====
section
/-! DEFINITION. The word types of the block and the records its ports carry: plain data, nothing computed here. -/

namespace Sys2Proof

/-- Every operand, modulus, working value and result (00_scope.md R6, the type `U64`). -/
abbrev U64 := BitVec 64

/-- An opcode or an error code (00_scope.md R5: `OPW` and `ERRW` are 2). -/
abbrev U2 := BitVec 2

/-- One beat of the command channel: `cmd_op`, `op_a`, `op_b`, `op_m` (30_encoding.md R65). -/
structure Command where
  op : U2
  a : U64
  b : U64
  m : U64
deriving DecidableEq, Repr, Inhabited

/-- The input ports as sampled at one rising edge of `clk` (10_state.md R20 to R23). -/
structure Inputs where
  rst : Bool
  cmdValid : Bool
  cmd : Command
  rspReady : Bool
deriving DecidableEq, Repr, Inhabited

/-- The output ports during one cycle (10_state.md R37). -/
structure Outputs where
  cmdReady : Bool
  rspValid : Bool
  rspErr : U2
  rspResult : U64
deriving DecidableEq, Repr, Inhabited

/-- The sequencer state `PHASE` (10_state.md R28). Its encoding in bits is not architectural. -/
inductive Phase where
  | idle
  | busy
  | resp
deriving DecidableEq, Repr, Inhabited

/-- The two verdicts of the primality tester (43_is_prime.md R119). -/
inductive Verdict where
  | composite
  | prime
deriving DecidableEq, Repr

end Sys2Proof
end

