-- ==== Sys2Proof/Config.lean ====
section
/-! DEFINITION. What the spec leaves open: each a constant without a body, so that no proof can see its value.
A statement about one of them holds whatever it is. The first argument is always the number of the clock edge
(`State.edge`), so that each edge gets a value of its own. -/

namespace Sys2Proof.Config

/-- DESIGN CHOICE (log 5). The parameter `LAT` of 70_reset_and_hazards.md R177 for the command accepted at an edge,
less 1: the command waits this many edges in BUSY and completes at the next. Finite, otherwise free; it may depend on
the command and on the edge. -/
opaque latency : Nat → Command → Nat

/-- DESIGN CHOICE (log 6). What the host drives at an edge for which `State.host` lists nothing
(60_exceptions.md R154: it may drive anything). -/
opaque hostInputs : Nat → Inputs

/-- DESIGN CHOICE (log 2, 8). `PHASE` before the first reset (70_reset_and_hazards.md R167). -/
opaque unspecifiedPhase : Nat → Phase

/-- DESIGN CHOICE (log 2, 8). `OP` after a reset edge (10_state.md R40) and before the first reset. -/
opaque unspecifiedOp : Nat → U2

/-- DESIGN CHOICE (log 2, 8). `RA` after a reset edge (10_state.md R40) and before the first reset. -/
opaque unspecifiedRa : Nat → U64

/-- DESIGN CHOICE (log 2, 8). `RB` after a reset edge (10_state.md R40) and before the first reset. -/
opaque unspecifiedRb : Nat → U64

/-- DESIGN CHOICE (log 2, 8). `RM` after a reset edge (10_state.md R40) and before the first reset. -/
opaque unspecifiedRm : Nat → U64

/-- DESIGN CHOICE (log 2, 3, 8). `RES` at the completion of an erroring command (10_state.md R26), after a reset edge
(R40) and before the first reset. -/
opaque unspecifiedRes : Nat → U64

/-- DESIGN CHOICE (log 2, 8). `ERR` after a reset edge (10_state.md R40) and before the first reset. -/
opaque unspecifiedErr : Nat → U2

/-- DESIGN CHOICE (log 7, 8). The outputs in the cycle before an edge, where they are unspecified
(10_state.md R37): all four before the first reset, `rspErr` and `rspResult` while they are not valid. -/
opaque unspecifiedOutputs : Nat → Outputs

end Sys2Proof.Config
end

