-- ==== Sys2Proof/Machine/State.lean ====
section
/-! DEFINITION. The state of the machine as plain data, the state after reset, and the reasons a step could stop. -/

namespace Sys2Proof.Machine

/-- The block and its host between two rising edges of `clk`. -/
structure State where
  /-- `PHASE` (10_state.md R28). -/
  phase : Phase
  /-- `OP`, the opcode of the command in flight (R24). -/
  op : U2
  /-- `RA`, operand a of the command in flight (R25). -/
  ra : U64
  /-- `RB`, operand b of the command in flight (R25). -/
  rb : U64
  /-- `RM`, modulus or candidate of the command in flight (R25). -/
  rm : U64
  /-- `RES`, result of the finished command (R26). -/
  res : U64
  /-- `ERR`, error code of the finished command (R27). -/
  err : U2
  /-- The model's own (log 8): an edge with `rst = 1` has come since power-on (70_reset_and_hazards.md R167). -/
  resetDone : Bool
  /-- The model's own (log 5): the edges the command in flight still waits in BUSY before its completion edge
  (10_state.md R34). -/
  left : Nat
  /-- The model's own (log 4): the number of the coming edge. It only picks the free values of Config. -/
  edge : Nat
  /-- The model's own (log 6): what the host drives at the coming edges, the next one first. -/
  host : List Inputs
deriving DecidableEq, Repr

/-- The machine after an edge with `rst = 1` (10_state.md R40): IDLE. R40 specifies no value for the six other
registers; zero is the model's DESIGN CHOICE (log 1), as are the values of the model's own fields (log 4, 5, 6, 8). -/
def State.reset : State where
  phase := .idle
  op := 0
  ra := 0
  rb := 0
  rm := 0
  res := 0
  err := 0
  resetDone := true
  left := 0
  edge := 0
  host := []

/-- The two errors of the block (60_exceptions.md R140). NO STEP STOPS WITH ONE: the block answers with an error response
and carries on (R145, R146), so a meaning takes a next state through `raise`. A response that carries one is the host's
fault in the run (93_implementation_defined.md U1 to U3): `Safety.hostFault` reads it off the state (log 9). -/
inductive Fault where
  /-- Code 1, raised by `MOD_MUL` and `MOD_POW` with m = 0 (R142). Safe: the step goes on, with a free `RES`. -/
  | invalidModulus
  /-- Code 2, raised by `IS_PRIME` with n below 2 (R143). Safe: the step goes on, with a free `RES`. -/
  | operandDomain
deriving DecidableEq, Repr

/-- Why there is no meaning for an instruction. -/
inductive Refusal where
  /-- Raised by an arm of `exec` whose instruction has no meaning yet. No arm answers so now. Safe. -/
  | notModelled (mnemonic : String)
deriving DecidableEq, Repr

end Sys2Proof.Machine
end

