-- ==== Sys2Proof/Machine/Flags.lean ====
section
/-! DEFINITION. The block has no flags (10_state.md R30); the status a host can see is the error code of a response and
the two handshake outputs. This file computes them. -/

namespace Sys2Proof.Machine

/-- The code of a successful completion (30_encoding.md R71). -/
def okCode : U2 := 0

/-- The code of each error (30_encoding.md R71, 60_exceptions.md R140). Code 3 belongs to none. -/
def errorCode : Fault → U2
  | .invalidModulus => 1
  | .operandDomain => 2

/-- The outputs as functions of the registers (10_state.md R37). Unspecified outputs are free values (log 7):
`rsp_err` outside RESP, `rsp_result` outside RESP and in an error response, everything before the first reset. -/
def State.outputs (s : State) : Outputs :=
  let free := Config.unspecifiedOutputs s.edge
  if s.resetDone then
    match s.phase with
    | .idle => { free with cmdReady := true, rspValid := false }
    | .busy => { free with cmdReady := false, rspValid := false }
    | .resp =>
      { cmdReady := false
        rspValid := true
        rspErr := s.err
        rspResult := if s.err = okCode then s.res else free.rspResult }
  else free

end Sys2Proof.Machine
end

