-- ==== Sys2Proof/Syntax.lean ====
section
/-! DEFINITION. The four commands of the block (30_encoding.md R66), one constructor per row of
spec/opcode_table.json. -/

namespace Sys2Proof

/-- A command as the dispatch sees it. The operands are the port values themselves (30_encoding.md R69). -/
inductive Instr where
  /-- `MOD_ADD a, b, m` (40_mod_add.md R86). -/
  | modAdd (a b m : U64)
  /-- `MOD_MUL a, b, m` (41_mod_mul.md R96). -/
  | modMul (a b m : U64)
  /-- `MOD_POW a, b, m`: base `a`, exponent `b` (42_mod_pow.md R108). -/
  | modPow (a b m : U64)
  /-- `IS_PRIME n` (43_is_prime.md R124). `a` and `b` are the ignored fields: any value may stand in them and they are
  latched like the others (30_encoding.md R67). -/
  | isPrime (a b n : U64)
deriving DecidableEq, Repr

end Sys2Proof
end

