-- ==== Sys2Proof/WellFormed.lean ====
section
/-! DEFINITION. Well-formedness: of an instruction (every one is, 30_encoding.md R74) and of a line of the assembler
notation (30_encoding.md R75), where a literal can be too large for its port. -/

namespace Sys2Proof

/-- 30_encoding.md R74: every opcode is assigned and every value of every operand field is accepted, so there is nothing
to check. One arm per constructor, so that a new one cannot slip past. -/
def Instr.wellFormed : Instr → Bool
  | .modAdd _ _ _ => true
  | .modMul _ _ _ => true
  | .modPow _ _ _ => true
  | .isPrime _ _ _ => true

/-- One line of the assembler notation (30_encoding.md R75), its literals not yet checked. -/
inductive AsmLine where
  | modAdd (a b m : Nat)
  | modMul (a b m : Nat)
  | modPow (a b m : Nat)
  | isPrime (n : Nat)
deriving DecidableEq, Repr

/-- An operand literal is an unsigned integer below 2^64 (30_encoding.md R75). -/
def literalFits (v : Nat) : Bool := v < 2 ^ 64

/-- Every operand literal of the line fits its port. -/
def AsmLine.wellFormed : AsmLine → Bool
  | .modAdd a b m => literalFits a && literalFits b && literalFits m
  | .modMul a b m => literalFits a && literalFits b && literalFits m
  | .modPow a b m => literalFits a && literalFits b && literalFits m
  | .isPrime n => literalFits n

end Sys2Proof
end

