-- ==== Sys2Proof/Decode.lean ====
section
/-! DEFINITION. Decoding and encoding: the opcode map (30_encoding.md R66), the packed command word `CMDW` (R65, R68),
the packed response word `RSPW` (R70) and the assembler notation (R75). -/

namespace Sys2Proof

/-- The opcode map, read (30_encoding.md R66, R78). All four opcodes are assigned, so decoding never refuses a command
(R74): the last arm is opcode 3 and nothing else. -/
def Command.decode (c : Command) : Instr :=
  if c.op = 0 then .modAdd c.a c.b c.m
  else if c.op = 1 then .modMul c.a c.b c.m
  else if c.op = 2 then .modPow c.a c.b c.m
  else .isPrime c.a c.b c.m

/-- The opcode map, written (30_encoding.md R66). -/
def Instr.opcode : Instr → U2
  | .modAdd _ _ _ => 0
  | .modMul _ _ _ => 1
  | .modPow _ _ _ => 2
  | .isPrime _ _ _ => 3

/-- The four port values of a command (30_encoding.md R65). -/
def Instr.command : Instr → Command
  | .modAdd a b m => ⟨Instr.opcode (.modAdd a b m), a, b, m⟩
  | .modMul a b m => ⟨Instr.opcode (.modMul a b m), a, b, m⟩
  | .modPow a b m => ⟨Instr.opcode (.modPow a b m), a, b, m⟩
  | .isPrime a b n => ⟨Instr.opcode (.isPrime a b n), a, b, n⟩

/-- The packed word: op in `CMDW[193:192]`, a in `[191:128]`, b in `[127:64]`, m in `[63:0]` (30_encoding.md R65). -/
def Command.word (c : Command) : BitVec 194 := c.op ++ (c.a ++ (c.b ++ c.m))

/-- The fields of a packed word (30_encoding.md R65). -/
def Command.ofWord (w : BitVec 194) : Command where
  op := w.extractLsb' 192 2
  a := w.extractLsb' 128 64
  b := w.extractLsb' 64 64
  m := w.extractLsb' 0 64

/-- Why a number is no command word. -/
inductive DecodeError where
  /-- A bit above `CMDW[193]` is set: the command has 194 bits (30_encoding.md R65). Safe: no port carries such a bit. -/
  | bitAboveCommand
deriving DecidableEq, Repr

/-- The packed word of an instruction. -/
def encode (i : Instr) : BitVec 194 := i.command.word

/-- Decoding a number, total: refused by name if it does not fit the 194 bits of `CMDW`. -/
def decodeWord (w : Nat) : Except DecodeError Instr :=
  if w < 2 ^ 194 then .ok (Command.ofWord (BitVec.ofNat 194 w)).decode else .error .bitAboveCommand

/-- The instruction in the low `nbits` bits of `w`, numbered as spec/opcode_table.json numbers them (the bits of `CMDW`);
every bit above `nbits` is 0. The table's row has 194 bits, which are 200 in whole bytes; the six above `CMDW[193]` must
be 0 (log 13). -/
def decodeTableWord (nbits w : Nat) : Option Instr :=
  match decodeWord (w % 2 ^ nbits) with
  | .ok i => some i
  | .error _ => none

/-- The packed response word: err in `RSPW[65:64]`, result in `[63:0]` (30_encoding.md R70). -/
def responseWord (err : U2) (result : U64) : BitVec 66 := err ++ result

/-- Assembling a well-formed line (30_encoding.md R75): `IS_PRIME n` puts 0 in both ignored fields. -/
def assemble (l : AsmLine) : Option Instr :=
  if l.wellFormed then
    match l with
    | .modAdd a b m => some (.modAdd (BitVec.ofNat 64 a) (BitVec.ofNat 64 b) (BitVec.ofNat 64 m))
    | .modMul a b m => some (.modMul (BitVec.ofNat 64 a) (BitVec.ofNat 64 b) (BitVec.ofNat 64 m))
    | .modPow a b m => some (.modPow (BitVec.ofNat 64 a) (BitVec.ofNat 64 b) (BitVec.ofNat 64 m))
    | .isPrime n => some (.isPrime 0 0 (BitVec.ofNat 64 n))
  else none

end Sys2Proof
end

