-- ==== Sys2Proof/Machine/Operands.lean ====
section
/-! DEFINITION. The operand forms: the three value ports, latched into `RA`, `RB`, `RM` (30_encoding.md R67), and the
one widening of the block, a verdict into the 64-bit `RES` (R73). -/

namespace Sys2Proof.Machine

/-- The command in flight, as latched at its accept edge (10_state.md R24, R25). -/
def State.command (s : State) : Command := ⟨s.op, s.ra, s.rb, s.rm⟩

/-- Latching a command: all four registers together, all 64 bits of each operand, for every opcode
(10_state.md R25, 20_memory.md R54). -/
def State.latchCommand (c : Command) (s : State) : State :=
  { s with op := c.op, ra := c.a, rb := c.b, rm := c.m }

/-- The verdict zero-extended to 64 bits: PRIME is 1, COMPOSITE is 0 (30_encoding.md R73). -/
def verdictResult : Verdict → U64
  | .prime => 1
  | .composite => 0

end Sys2Proof.Machine
end

