-- ==== Sys2Proof/Machine/Ops.lean ====
section
/-! DEFINITION. The operations a clock edge is made of: sampling the inputs, accepting a command, completing it with a
result or with an error, taking the response, resetting. Each that moves the machine is one rising edge of `clk`. -/

namespace Sys2Proof.Machine

/-- The input ports as sampled at the coming edge: what the host lists, a free value when it lists nothing (log 6). -/
def State.inputs (s : State) : Inputs :=
  match s.host with
  | [] => Config.hostInputs s.edge
  | p :: _ => p

/-- The edge itself: the next edge has the next number and samples the host's next inputs. No register changes. -/
def State.tick (s : State) : State :=
  { s with edge := s.edge + 1, host := s.host.tail }

/-- The accept of a command (10_state.md R33): the four registers latch it and the phase is BUSY; `RES` and `ERR` are
not changed. The wait of the command is drawn here (log 5). -/
def State.accept (c : Command) (s : State) : State :=
  { s.tick.latchCommand c with phase := .busy, left := Config.latency s.edge c }

/-- An edge at which nothing is finished: BUSY goes on, with one edge less to wait (10_state.md R34). -/
def State.wait (s : State) : State :=
  { s.tick with left := s.left - 1 }

/-- The completion of a command: `ERR` and `RES` are written together and the phase is RESP
(10_state.md R34, 20_memory.md R54). -/
def State.complete (err : U2) (v : U64) (s : State) : State :=
  { s.tick with phase := .resp, err := err, res := v }

/-- `respond(OK, v)`: completion with a result (00_scope.md R7). -/
def respond (v : U64) (s : State) : Host.Outcome State Fault Refusal :=
  .next (s.complete okCode v)

/-- `raise E`, the one shared exception entry (60_exceptions.md R145): completion with `ERR <- code(E)` and an
unspecified `RES`, a free value (log 3). Nothing else changes. -/
def raise (e : Fault) (s : State) : Host.Outcome State Fault Refusal :=
  .next (s.complete (errorCode e) (Config.unspecifiedRes s.edge))

/-- The response handshake, also the only return from an error (10_state.md R35, 60_exceptions.md R146): the phase is
IDLE; `ERR` and `RES` keep their values. -/
def State.takeResponse (s : State) : State :=
  { s.tick with phase := .idle }

/-- An edge with `rst = 1` (10_state.md R36), whatever the phase and the other inputs: IDLE, and every other register
unspecified, a free value (log 2). Nothing is left to wait for: a command in flight is abandoned. -/
def State.resetEdge (s : State) : State :=
  { s.tick with
    phase := .idle
    op := Config.unspecifiedOp s.edge
    ra := Config.unspecifiedRa s.edge
    rb := Config.unspecifiedRb s.edge
    rm := Config.unspecifiedRm s.edge
    res := Config.unspecifiedRes s.edge
    err := Config.unspecifiedErr s.edge
    resetDone := true
    left := 0 }

/-- An edge with `rst = 0` before the first reset: the whole state of the block is unspecified
(70_reset_and_hazards.md R167), free values (log 8). -/
def State.powerOnEdge (s : State) : State :=
  { s.tick with
    phase := Config.unspecifiedPhase s.edge
    op := Config.unspecifiedOp s.edge
    ra := Config.unspecifiedRa s.edge
    rb := Config.unspecifiedRb s.edge
    rm := Config.unspecifiedRm s.edge
    res := Config.unspecifiedRes s.edge
    err := Config.unspecifiedErr s.edge }

/-- The edge of phase IDLE with `rst = 0` (10_state.md R33). -/
def State.idleEdge (s : State) : State :=
  if s.inputs.cmdValid then s.accept s.inputs.cmd else s.tick

/-- The edge of phase RESP with `rst = 0` (10_state.md R35). -/
def State.respEdge (s : State) : State :=
  if s.inputs.rspReady then s.takeResponse else s.tick

/-- `s` with a command accepted and about to complete: what `withFetchWord` places (log 12). Reset has been given, `rst` is
0 at the coming edge, and no wait is left, so that the very next edge completes exactly this command. -/
def State.placeCommand (c : Command) (s : State) : State :=
  { s.latchCommand c with
    phase := .busy
    left := 0
    resetDone := true
    host :=
      match s.host with
      | [] => [⟨false, false, c, false⟩]
      | p :: rest => { p with rst := false } :: rest }

end Sys2Proof.Machine
end

