-- ==== Sys2Proof/Machine/ModAdd.lean ====
section
/-! DEFINITION. The modular_adder unit and the meaning of `MOD_ADD` (40_mod_add.md). -/

namespace Sys2Proof.Machine

/-- The unit function `mod_add` in 64-bit registers (40_mod_add.md R85). -/
def modAdd (a b m : U64) : U64 :=
  if m = 0 then 0
  else
    let a1 := a % m
    let b1 := b % m
    let t := m - b1
    if a1 ≥ t then a1 - t else a1 + b1

/-- `MOD_ADD a, b, m` (40_mod_add.md R86): no operand is an error, m = 0 responds OK with 0 (R90). -/
def execModAdd (a b m : U64) (s : State) : Host.Outcome State Fault Refusal :=
  respond (modAdd a b m) s

end Sys2Proof.Machine
end

