-- ==== Sys2Proof/Machine/Scan.lean ====
section
/-! DEFINITION. The binary scan shared by the multiplier and the exponentiation engine: double-and-add and
square-and-multiply are one loop over two operations (41_mod_mul.md R95, 42_mod_pow.md R107). -/

namespace Sys2Proof.Machine

/-- Loading a working register before the unit goes on. Its value is `k v`; the match only makes Lean's kernel compute the
register's number here, so that a run of the model can be evaluated. -/
def latch {α : Type} (v : U64) (k : U64 → α) : α :=
  match v.toNat with
  | 0 => k 0
  | n + 1 => k (BitVec.ofNat 64 (n + 1))

/-- `bitlen(b)`: 0 for 0, else 1 + the index of the highest set bit (00_scope.md R7). -/
def bitlen (b : U64) : Nat :=
  if b = 0 then 0 else b.toNat.log2 + 1

/-- The iterations `i, i + 1, ..., i + k - 1` of the loop over the bits of `b`, low to high, with working registers `r`
and `x` (10_state.md R31): a set bit accumulates, and every iteration except the last (`k = 1`) doubles `x`. -/
def scanLoop (op : U64 → U64 → U64) (b : U64) : (k i : Nat) → (r x : U64) → U64
  | 0, _, r, _ => r
  | k + 1, i, r, x =>
    latch (if b.getLsbD i then op r x else r) fun r' =>
    latch (if k = 0 then x else op x x) fun x' =>
    scanLoop op b k (i + 1) r' x'

/-- The loop of both units: `i = 0 .. bitlen(b) - 1`, accumulator starting at `r`, working copy at `x`. -/
def scan (op : U64 → U64 → U64) (b r x : U64) : U64 :=
  scanLoop op b (bitlen b) 0 r x

end Sys2Proof.Machine
end

