-- ==== Sys2Proof/Machine/ModMul.lean ====
section
/-! DEFINITION. The modular_multiplier unit and the meaning of `MOD_MUL` (41_mod_mul.md). -/

namespace Sys2Proof.Machine

/-- The unit function `mod_mul`, double-and-add over `mod_add` (41_mod_mul.md R95). Used with m >= 1 only. -/
def modMul (a b m : U64) : U64 :=
  scan (fun u v => modAdd u v m) b 0 a

/-- `MOD_MUL a, b, m` (41_mod_mul.md R96, R97). -/
def execModMul (a b m : U64) (s : State) : Host.Outcome State Fault Refusal :=
  if m = 0 then raise .invalidModulus s else respond (modMul a b m) s

end Sys2Proof.Machine
end

