-- ==== Sys2Proof/Machine/ModPow.lean ====
section
/-! DEFINITION. The modular_exponentiation_engine unit and the meaning of `MOD_POW` (42_mod_pow.md). -/

namespace Sys2Proof.Machine

/-- The unit function `mod_pow`, square-and-multiply over `mod_mul` (42_mod_pow.md R107). Used with m >= 1 only. The
accumulator starts at `1 mod m` (R111, 90_conflicts.md C1). -/
def modPow (a b m : U64) : U64 :=
  scan (fun u v => modMul u v m) b (1 % m) a

/-- `MOD_POW a, b, m` (42_mod_pow.md R108, R109). -/
def execModPow (a b m : U64) (s : State) : Host.Outcome State Fault Refusal :=
  if m = 0 then raise .invalidModulus s else respond (modPow a b m) s

end Sys2Proof.Machine
end

