-- ==== Sys2Proof/Machine/IsPrime.lean ====
section
/-! DEFINITION. The miller_rabin_primality_tester unit and the meaning of `IS_PRIME` (43_is_prime.md). -/

namespace Sys2Proof.Machine

/-- The base table `BASE[0..11]` (20_memory.md R51). -/
def baseTable : List U64 := [2, 3, 5, 7, 11, 13, 17, 19, 23, 29, 31, 37]

/-- Step 1, trial division by the entries of a table (43_is_prime.md R120): a verdict, or none if every entry is passed. -/
def trialDivision (n : U64) : List U64 → Option Verdict
  | [] => none
  | p :: ps =>
    if n = p then some .prime
    else if n % p = 0 then some .composite
    else trialDivision n ps

/-- The number of zero bits of `v` from bit `i` up to the first set one, looking at `k` bits. -/
def trailingZeros (v : U64) : (k i : Nat) → Nat
  | 0, i => i
  | k + 1, i => if v.getLsbD i then i else trailingZeros v k (i + 1)

/-- `ctz(v)`, the largest k with 2^k dividing v (00_scope.md R7); never applied to 0 (43_is_prime.md R121). -/
def ctz (v : U64) : Nat := trailingZeros v 64 0

/-- The squarings of a round, at most `k` of them: whether one gives n - 1 (43_is_prime.md R122). -/
def squaringsPass (n : U64) : (k : Nat) → (x : U64) → Bool
  | 0, _ => false
  | k + 1, x => latch (modMul x x n) fun x' => if x' = n - 1 then true else squaringsPass n k x'

/-- One Miller-Rabin round with n - 1 = d * 2^s: whether the base passes (43_is_prime.md R122). -/
def basePasses (n d : U64) (s : Nat) (base : U64) : Bool :=
  latch (base % n) fun a =>
    if a = 0 then true
    else
      latch (modPow a d n) fun x =>
        if x = 1 ∨ x = n - 1 then true else squaringsPass n (s - 1) x

/-- Step 3, the rounds in table order; COMPOSITE at the first witness, PRIME if every base passes
(43_is_prime.md R122, R123). -/
def rounds (n d : U64) (s : Nat) : List U64 → Verdict
  | [] => .prime
  | base :: rest => if basePasses n d s base then rounds n d s rest else .composite

/-- The four steps over a table (43_is_prime.md R119); step 2 is `s = ctz(n - 1)`, `d = (n - 1) div 2^s` (R121). -/
def isPrimeOver (table : List U64) (n : U64) : Verdict :=
  match trialDivision n table with
  | some v => v
  | none =>
    let s := ctz (n - 1)
    latch ((n - 1) >>> s) fun d => rounds n d s table

/-- The unit function `is_prime` (43_is_prime.md R119). Used with n >= 2 only. -/
def isPrime (n : U64) : Verdict := isPrimeOver baseTable n

/-- `IS_PRIME n` (43_is_prime.md R124, R125). `a` and `b` are ignored (30_encoding.md R67). -/
def execIsPrime (n : U64) (s : State) : Host.Outcome State Fault Refusal :=
  if n < 2 then raise .operandDomain s else respond (verdictResult (isPrime n)) s

end Sys2Proof.Machine
end

