-- ==== Sys2Proof/Machine/Dispatch.lean ====
section
/-! DEFINITION. The dispatch `exec` of 30_encoding.md R78: the completion edge of a command. -/

namespace Sys2Proof.Machine

def exec (i : Instr) (s : State) : Host.Outcome State Fault Refusal :=
  match i with
  | .modAdd a b m => Sys2Proof.Machine.execModAdd a b m s
  | .modMul a b m => Sys2Proof.Machine.execModMul a b m s
  | .modPow a b m => Sys2Proof.Machine.execModPow a b m s
  | .isPrime _ _ n => Sys2Proof.Machine.execIsPrime n s

end Sys2Proof.Machine
end

