-- ==== Sys2Proof/Machine/Step.lean ====
section
/-! DEFINITION. One step: one rising edge of `clk` (10_state.md section 5). -/

namespace Sys2Proof.Machine

/-- One rising edge of `clk` (10_state.md R33 to R36). `rst = 1` wins over everything. In BUSY the command in flight
completes when it has no edge left to wait: the latched registers are decoded and run (R34, 30_encoding.md R78). -/
def step (s : State) : Host.Outcome State Fault Refusal :=
  if s.inputs.rst then .next s.resetEdge
  else if s.resetDone then
    match s.phase with
    | .idle => .next s.idleEdge
    | .busy => if s.left = 0 then exec s.command.decode s else .next s.wait
    | .resp => .next s.respEdge
  else .next s.powerOnEdge

/-- `s` with the command word `w` accepted, so that the very next step completes it (log 12). Bits above `nbits` are 0. -/
def State.withFetchWord (s : State) (nbits w : Nat) : State :=
  s.placeCommand (Command.ofWord (BitVec.ofNat 194 (w % 2 ^ nbits)))

end Sys2Proof.Machine
end

