-- ==== Sys2Proof/Safety.lean ====
section
/-! DEFINITION. The terms claims use: the observation (00_scope.md section 7), the response a command must get
(30_encoding.md R78), the host's faults, the invariant of the machine. Nothing here is part of a step. -/

namespace Sys2Proof.Safety

open Sys2Proof.Machine

/-- A response as a claim sees it: the error code, and the result unless it is an error response
(00_scope.md section 7: `RES` of an error response is not part of the observation). -/
structure Response where
  err : U2
  result : Option U64
deriving DecidableEq, Repr

/-- The response to a command, a function of the command alone (10_state.md R32, 30_encoding.md R78). -/
def responseOf (c : Command) : Response :=
  match c.decode with
  | .modAdd a b m => ⟨0, some (modAdd a b m)⟩
  | .modMul a b m => if m = 0 then ⟨1, none⟩ else ⟨0, some (modMul a b m)⟩
  | .modPow a b m => if m = 0 then ⟨1, none⟩ else ⟨0, some (modPow a b m)⟩
  | .isPrime _ _ n => if n < 2 then ⟨2, none⟩ else ⟨0, some (verdictResult (isPrime n))⟩

/-- The operand preconditions a host owes for a meaningful result (70_reset_and_hazards.md R172). -/
def PreconditionMet : Instr → Prop
  | .modAdd _ _ _ => True
  | .modMul _ _ m => m ≠ 0
  | .modPow _ _ m => m ≠ 0
  | .isPrime _ _ n => ¬ n < 2

/-- A base passes the Miller-Rabin round for n, in the integers: with n - 1 = d * 2^s and d odd, a^d is 1 modulo n or some
a^(d * 2^j) with j < s is n - 1 (43_is_prime.md R121, R122). -/
def PassesBase (n a : Nat) : Prop :=
  ∃ d s, d % 2 = 1 ∧ n - 1 = d * 2 ^ s ∧ (a ^ d % n = 1 ∨ ∃ j < s, a ^ (d * 2 ^ j) % n = n - 1)

/-- A variant of the exponentiation loop that 42_mod_pow.md R112 allows: the exponent's bits `k - 1, ..., 0` from the highest
down, squaring the accumulator and then multiplying by the base when the bit is set. -/
def powHighToLow (a b m : U64) : (k : Nat) → (r : U64) → U64
  | 0, r => r
  | k + 1, r =>
    let sq := modMul r r m
    powHighToLow a b m k (if b.getLsbD k then modMul sq a m else sq)

/-- The response held in `ERR` and `RES`, as far as it is part of the observation. -/
def held (s : State) : Response := ⟨s.err, if s.err = okCode then some s.res else none⟩

/-- The host's fault a waiting response reports (60_exceptions.md R142, R143; 93_implementation_defined.md U1 to U3). -/
def hostFault (s : State) : Option Fault :=
  if s.phase = .resp ∧ s.err = errorCode .invalidModulus then some .invalidModulus
  else if s.phase = .resp ∧ s.err = errorCode .operandDomain then some .operandDomain
  else none

/-- The command accepted at the coming edge, if one is (10_state.md R22). -/
def commandAccepted (s : State) : Option Command :=
  if s.inputs.rst = false ∧ s.inputs.cmdValid = true ∧ s.outputs.cmdReady = true then some s.inputs.cmd else none

/-- The response taken at the coming edge, if one is, read off the output ports (10_state.md R23, R37). -/
def responseTaken (s : State) : Option Response :=
  if s.inputs.rst = false ∧ s.outputs.rspValid = true ∧ s.inputs.rspReady = true then
    some ⟨s.outputs.rspErr, if s.outputs.rspErr = okCode then some s.outputs.rspResult else none⟩
  else none

/-- The events of the next `k` edges, in order, as `event` reads them off the state before each edge. -/
def observe {α : Type} (event : State → Option α) : Nat → State → List α
  | 0, _ => []
  | k + 1, s =>
    (event s).toList ++
      match step s with
      | .next t => observe event k t
      | .fault _ => []
      | .refused _ => []

/-- The commands accepted at the next `k` edges. -/
def accepted (k : Nat) (s : State) : List Command := observe commandAccepted k s

/-- The responses taken at the next `k` edges. -/
def responses (k : Nat) (s : State) : List Response := observe responseTaken k s

/-- No reset is sampled at the next `k` edges. -/
def noReset : Nat → State → Prop
  | 0, _ => True
  | k + 1, s => s.inputs.rst = false ∧ noReset k s.tick

/-- No response is taken at the next `k` edges, because the host keeps `rsp_ready = 0`. -/
def notTaken : Nat → State → Prop
  | 0, _ => True
  | k + 1, s => s.inputs.rspReady = false ∧ notTaken k s.tick

/-- The invariant of the machine: reset has been given, and a waiting response is the response of the latched command
(10_state.md R32, R38, R39). -/
def Inv (s : State) : Prop :=
  s.resetDone = true ∧ (s.phase = .resp → held s = responseOf s.command)

end Sys2Proof.Safety
end

