-- ==== Sys2Proof/Certificates/Slice0/Obligations.lean ====
section
/-! DEFINITION. The statements for the provers, from the numbered rules of spec/. A value that the model chose (a log entry)
is no part of a statement unless its docstring says so. -/

open Sys2Proof Sys2Proof.Machine Sys2Proof.Safety

/-! ### Encoding -/

/-- Four words written out from the encoding of 30_encoding.md R65, R66 (95_test_vectors.md A1, M2, W1, Q15) decode to the
commands they stand for. -/
def Obligations.WrittenOutWordsDecode : Prop :=
  decodeTableWord 200 0x0_0000000000000005_0000000000000007_000000000000000A = some (.modAdd 5 7 10) ∧
  decodeTableWord 200 0x1_0000000000000007_0000000000000006_000000000000000A = some (.modMul 7 6 10) ∧
  decodeTableWord 200 0x2_0000000000000004_000000000000000D_00000000000001F1 = some (.modPow 4 13 497) ∧
  decodeTableWord 200 0x3_0000000000000000_0000000000000000_00000000000006E3 = some (.isPrime 0 0 1763)

/-- 30_encoding.md R68: `CMDW = op * 2^192 + a * 2^128 + b * 2^64 + m`, with its example. -/
def Obligations.CommandWordIsThePackedSum : Prop :=
  (∀ a b m : U64,
    (encode (.modAdd a b m)).toNat = 0 * 2 ^ 192 + a.toNat * 2 ^ 128 + b.toNat * 2 ^ 64 + m.toNat ∧
    (encode (.modMul a b m)).toNat = 1 * 2 ^ 192 + a.toNat * 2 ^ 128 + b.toNat * 2 ^ 64 + m.toNat ∧
    (encode (.modPow a b m)).toNat = 2 * 2 ^ 192 + a.toNat * 2 ^ 128 + b.toNat * 2 ^ 64 + m.toNat ∧
    (encode (.isPrime a b m)).toNat = 3 * 2 ^ 192 + a.toNat * 2 ^ 128 + b.toNat * 2 ^ 64 + m.toNat) ∧
  (encode (.modMul 7 6 10)).toNat = 0x1_0000000000000007_0000000000000006_000000000000000A

/-- Decode and encode agree, both ways (30_encoding.md R65, R66, R74): every well-formed instruction, with every operand at
every value, is read back from its word, and every 194-bit number is the word of a well-formed instruction, the one it
decodes to. The refusal of a set bit above `CMDW[193]` is the model's choice (log 13). -/
def Obligations.DecodeAndEncodeAgree : Prop :=
  (∀ i : Instr, i.wellFormed = true → decodeTableWord 200 (encode i).toNat = some i) ∧
  (∀ w : Nat, w < 2 ^ 194 →
    ∃ i : Instr, i.wellFormed = true ∧ decodeTableWord 200 w = some i ∧ (encode i).toNat = w) ∧
  (∀ w : Nat, 2 ^ 194 ≤ w → w < 2 ^ 200 → decodeTableWord 200 w = none)

/-! ### The unit functions -/

/-- 40_mod_add.md R87, R89: with m >= 1 `mod_add` is the exact sum modulo m, reduced, with the consequences the rules
list; with m = 0 it is 0. -/
def Obligations.ModAddIsExactSumModulo : Prop :=
  (∀ a b m : U64, m ≠ 0 →
    (modAdd a b m).toNat = (a.toNat + b.toNat) % m.toNat ∧
    (modAdd a b m).toNat ≤ m.toNat - 1 ∧
    modAdd a b m = modAdd b a m ∧
    (modAdd a 0 m).toNat = a.toNat % m.toNat) ∧
  (∀ a b : U64, modAdd a b 1 = 0) ∧
  (∀ a b : U64, modAdd a b 0 = 0) ∧
  modAdd 0xFFFFFFFFFFFFFFFF 1 0xFFFFFFFFFFFFFFFF = 1

/-- 40_mod_add.md R88: no value formed in `mod_add` is negative or wider than 64 bits. The 64-bit `m - b1` does not borrow,
`a1 - t` and `a1 + b1`, where they are formed, neither borrow nor carry, and the function equals the same steps over
unbounded integers. -/
def Obligations.ModAddNeverLeaves64Bits : Prop :=
  ∀ a b m : U64, m ≠ 0 →
    (a % m).toNat < m.toNat ∧ (b % m).toNat < m.toNat ∧
    (m - b % m).toNat = m.toNat - (b % m).toNat ∧
    1 ≤ (m - b % m).toNat ∧ (m - b % m).toNat ≤ m.toNat ∧
    (m - b % m ≤ a % m → (a % m - (m - b % m)).toNat + (m - b % m).toNat = (a % m).toNat) ∧
    (¬ m - b % m ≤ a % m →
      (a % m + b % m).toNat = (a % m).toNat + (b % m).toNat ∧ (a % m).toNat + (b % m).toNat ≤ m.toNat - 1) ∧
    (modAdd a b m).toNat =
      (if a.toNat % m.toNat ≥ m.toNat - b.toNat % m.toNat then
        a.toNat % m.toNat - (m.toNat - b.toNat % m.toNat)
      else a.toNat % m.toNat + b.toNat % m.toNat)

/-- 41_mod_mul.md R99: with m >= 1 `mod_mul` is the exact product modulo m, with the consequences the rule lists. -/
def Obligations.ModMulIsExactProductModulo : Prop :=
  (∀ a b m : U64, m ≠ 0 →
    (modMul a b m).toNat = a.toNat * b.toNat % m.toNat ∧
    (modMul a b m).toNat ≤ m.toNat - 1 ∧
    modMul a b m = modMul b a m ∧
    (modMul a 1 m).toNat = a.toNat % m.toNat ∧
    modMul a 0 m = 0 ∧ modMul 0 b m = 0) ∧
  (∀ a b : U64, modMul a b 1 = 0)

/-- 41_mod_mul.md R100: running the loop for any number of iterations that covers the bits of b returns the same r. With
one iteration more than `bitlen(b)`, x is also doubled where R95 skips it. -/
def Obligations.ModMulIterationCountCannotBeSeen : Prop :=
  ∀ (a b m : U64) (k : Nat), m ≠ 0 → bitlen b ≤ k →
    scanLoop (fun u v => modAdd u v m) b k 0 0 a = modMul a b m

/-- 42_mod_pow.md R110, R111: with m >= 1 `mod_pow` is the exact power modulo m, 0^0 being 1, with the consequences the
rules list. -/
def Obligations.ModPowIsExactPowerModulo : Prop :=
  (∀ a b m : U64, m ≠ 0 →
    (modPow a b m).toNat = a.toNat ^ b.toNat % m.toNat ∧
    (modPow a b m).toNat ≤ m.toNat - 1 ∧
    (modPow a 1 m).toNat = a.toNat % m.toNat ∧
    modPow a b m = modPow (a % m) b m ∧
    (b ≠ 0 → modPow 0 b m = 0) ∧
    (modPow 1 b m).toNat = 1 % m.toNat ∧
    (modPow a 0 m).toNat = 1 % m.toNat) ∧
  (∀ a b : U64, modPow a b 1 = 0)

/-- 42_mod_pow.md R112: more iterations than `bitlen(b)` (so that x is squared on the last iteration too, or always 64
iterations run), or the exponent scanned from the highest set bit down, return the same value. -/
def Obligations.ModPowScanOrderCannotBeSeen : Prop :=
  ∀ (a b m : U64) (k : Nat), m ≠ 0 → bitlen b ≤ k →
    scanLoop (fun u v => modMul u v m) b k 0 (1 % m) a = modPow a b m ∧
    powHighToLow a b m k (1 % m) = modPow a b m

/-- 43_is_prime.md R126, R127: what reaches step 2 is odd, at least 41 and coprime to every entry of the base table, and no
entry is 0 modulo it. -/
def Obligations.WhatTrialDivisionLeaves : Prop :=
  ∀ n : U64, 2 ≤ n.toNat → trialDivision n baseTable = none →
    n.toNat % 2 = 1 ∧ 41 ≤ n.toNat ∧ ∀ p ∈ baseTable, Nat.Coprime n.toNat p.toNat ∧ p % n = p ∧ p % n ≠ 0

/-- 43_is_prime.md R121: for every n that reaches step 2, n is odd and at least 41, n - 1 is even and at least 40 (so `ctz` is
not applied to 0), and `n - 1 = d * 2^s` with d odd, `1 <= s <= 63` and `d >= 1`. -/
def Obligations.DecompositionOfCandidateMinusOne : Prop :=
  ∀ n : U64, 2 ≤ n.toNat → trialDivision n baseTable = none →
    n.toNat % 2 = 1 ∧ 41 ≤ n.toNat ∧ (n - 1).toNat % 2 = 0 ∧ 40 ≤ (n - 1).toNat ∧
    n.toNat - 1 = ((n - 1) >>> ctz (n - 1)).toNat * 2 ^ ctz (n - 1) ∧
    ((n - 1) >>> ctz (n - 1)).toNat % 2 = 1 ∧
    1 ≤ ctz (n - 1) ∧ ctz (n - 1) ≤ 63 ∧ 1 ≤ ((n - 1) >>> ctz (n - 1)).toNat

/-- 43_is_prime.md R120, R130: the order of the base table cannot be seen in the verdict. -/
def Obligations.BaseOrderCannotBeSeen : Prop :=
  ∀ (table : List U64) (n : U64), table.Perm baseTable → 2 ≤ n.toNat → isPrimeOver table n = isPrime n

/-! ### The commands -/

/-- `MOD_ADD` completes on every operand and in every state (40_mod_add.md R86, R89, R90): OK, with the exact sum modulo m,
or with 0 if m = 0. -/
def Obligations.ModAddCommandAnswers : Prop :=
  ∀ (a b m : U64) (s : State), ∃ t, exec (.modAdd a b m) s = .next t ∧ t.phase = .resp ∧ t.err = 0 ∧
    t.res.toNat = if m = 0 then 0 else (a.toNat + b.toNat) % m.toNat

/-- `MOD_MUL` completes with m >= 1 (41_mod_mul.md R96, R99): OK, with the exact product modulo m. -/
def Obligations.ModMulCommandAnswers : Prop :=
  ∀ (a b m : U64) (s : State), m ≠ 0 → ∃ t, exec (.modMul a b m) s = .next t ∧ t.phase = .resp ∧ t.err = 0 ∧
    t.res.toNat = a.toNat * b.toNat % m.toNat

/-- `MOD_POW` completes with m >= 1 (42_mod_pow.md R108, R110, R111): OK, with the exact power modulo m. -/
def Obligations.ModPowCommandAnswers : Prop :=
  ∀ (a b m : U64) (s : State), m ≠ 0 → ∃ t, exec (.modPow a b m) s = .next t ∧ t.phase = .resp ∧ t.err = 0 ∧
    t.res.toNat = a.toNat ^ b.toNat % m.toNat

/-- `IS_PRIME` completes with n >= 2 (43_is_prime.md R119 to R124), whatever the ignored operands: OK, with 1 if n is an
entry of the base table, or if no entry divides it and it passes the Miller-Rabin round of every entry, in the integers;
with 0 otherwise. -/
def Obligations.IsPrimeCommandAnswers : Prop :=
  ∀ (a b n : U64) (s : State), 2 ≤ n.toNat → ∃ t, exec (.isPrime a b n) s = .next t ∧ t.phase = .resp ∧ t.err = 0 ∧
    (t.res = 1 ∨ t.res = 0) ∧
    (t.res = 1 ↔
      n.toNat ∈ [2, 3, 5, 7, 11, 13, 17, 19, 23, 29, 31, 37] ∨
      ∀ p ∈ [2, 3, 5, 7, 11, 13, 17, 19, 23, 29, 31, 37], ¬ p ∣ n.toNat ∧ PassesBase n.toNat p)

/-- The half of 43_is_prime.md R129 that follows from the rules alone: every prime number is answered PRIME, so a verdict
COMPOSITE is always right. -/
def Obligations.IsPrimeAnswersPrimeForEveryPrime : Prop :=
  ∀ (a b n : U64) (s : State), Nat.Prime n.toNat →
    ∃ t, exec (.isPrime a b n) s = .next t ∧ t.phase = .resp ∧ t.err = 0 ∧ t.res = 1

/-- 43_is_prime.md R128: `IS_PRIME` is defined for every n >= 2: PRIME for 2 and 3, COMPOSITE for every even n >= 4. -/
def Obligations.IsPrimeDecidesTwoThreeAndEvenNumbers : Prop :=
  (∀ (a b n : U64) (s : State), 2 ≤ n.toNat → ∃ t, exec (.isPrime a b n) s = .next t ∧ t.err = 0) ∧
  (∀ (a b : U64) (s : State), ∃ t, exec (.isPrime a b 2) s = .next t ∧ t.err = 0 ∧ t.res = 1) ∧
  (∀ (a b : U64) (s : State), ∃ t, exec (.isPrime a b 3) s = .next t ∧ t.err = 0 ∧ t.res = 1) ∧
  (∀ (a b n : U64) (s : State), 4 ≤ n.toNat → n.toNat % 2 = 0 →
    ∃ t, exec (.isPrime a b n) s = .next t ∧ t.err = 0 ∧ t.res = 0)

/-- 60_exceptions.md R140: exactly two errors. Code 1 for `MOD_MUL` and `MOD_POW` with m = 0, code 2 for `IS_PRIME` with
n < 2, code 3 never, and OK in every other case: whenever the precondition of 70_reset_and_hazards.md R172 is met. -/
def Obligations.ErrorsAreExactlyTheTwoOfTheTable : Prop :=
  ∀ (i : Instr) (s : State), ∃ t, exec i s = .next t ∧
    (t.err = 1 ↔ ∃ a b, i = .modMul a b 0 ∨ i = .modPow a b 0) ∧
    (t.err = 2 ↔ ∃ a b n, i = .isPrime a b n ∧ n.toNat < 2) ∧
    t.err ≠ 3 ∧ (t.err = 0 ↔ PreconditionMet i)

/-- The error entry (60_exceptions.md R141, R142, R143, R145): a broken precondition writes the code into `ERR`, some value
into `RES`, RESP into `PHASE`, and changes nothing else; the edge itself uses up one host input. -/
def Obligations.ErrorEntryWritesCodeAndPhaseOnly : Prop :=
  (∀ (a b : U64) (s : State), ∃ v, exec (.modMul a b 0) s =
    .next { s with phase := .resp, err := 1, res := v, edge := s.edge + 1, host := s.host.tail }) ∧
  (∀ (a b : U64) (s : State), ∃ v, exec (.modPow a b 0) s =
    .next { s with phase := .resp, err := 1, res := v, edge := s.edge + 1, host := s.host.tail }) ∧
  (∀ (a b n : U64) (s : State), n.toNat < 2 → ∃ v, exec (.isPrime a b n) s =
    .next { s with phase := .resp, err := 2, res := v, edge := s.edge + 1, host := s.host.tail })

/-- The frame of all four commands at their completion (40_mod_add.md R86, 41_mod_mul.md R96, 42_mod_pow.md R108,
43_is_prime.md R124, 10_state.md R30): only `RES`, `ERR` and `PHASE` are written. `OP`, `RA`, `RB`, `RM` keep the command.
There is no memory, flag or other register. -/
def Obligations.CompletionFrameOfEveryCommand : Prop :=
  ∀ (i : Instr) (s t : State), exec i s = .next t →
    t.phase = .resp ∧ t.op = s.op ∧ t.ra = s.ra ∧ t.rb = s.rb ∧ t.rm = s.rm ∧
    t.resetDone = s.resetDone ∧ t.left = s.left ∧ t.edge = s.edge + 1 ∧ t.host = s.host.tail

/-- 10_state.md R32: the response of a command is a function of the command alone. Two completions of one command, in any
two states, show the same error code, and the same result unless it is an error. -/
def Obligations.ResponseDependsOnTheCommandOnly : Prop :=
  ∀ (i : Instr) (s s' : State), ∃ t t', exec i s = .next t ∧ exec i s' = .next t' ∧
    t.err = t'.err ∧ (t.err = 0 → t.res = t'.res)

/-- 30_encoding.md R67: `IS_PRIME` uses m only; its fields a and b have no effect on the response. Two completions with the
same candidate, whatever a and b are and whatever the states are, show the same error code, and the same result unless it is
an error. -/
def Obligations.IsPrimeIgnoresItsFirstTwoOperands : Prop :=
  ∀ (a b a' b' n : U64) (s s' : State),
    ∃ t t', exec (.isPrime a b n) s = .next t ∧ exec (.isPrime a' b' n) s' = .next t' ∧
      t.err = t'.err ∧ (t.err = 0 → t.res = t'.res)

/-! ### The clock edge -/

/-- No edge stops the machine: the block cannot hang on any command, error or input (30_encoding.md R74,
60_exceptions.md R148). That an edge with `rst = 0` before the first reset has a next state too is the model's choice
(log 8). -/
def Obligations.EveryEdgeHasANextState : Prop :=
  ∀ s : State, ∃ t, step s = .next t

/-- A step runs the decoded command (10_state.md R34, 30_encoding.md R78): at the completion edge the step is exactly
`exec` of the command the latched registers decode to. That the model draws the wait at the accept (`left`) is its choice
(log 5). The second clause, that a command word placed by `withFetchWord` is run by the very next step, is the model's choice
(log 12): the spec places no word. -/
def Obligations.StepRunsTheDecodedCommand : Prop :=
  (∀ (s : State) (i : Instr), s.inputs.rst = false → s.resetDone = true → s.phase = .busy → s.left = 0 →
    s.command.decode = i → i.wellFormed = true → step s = exec i s) ∧
  (∀ (s : State) (nbits w : Nat) (i : Instr), decodeTableWord nbits w = some i →
    step (s.withFetchWord nbits w) = exec i (s.withFetchWord nbits w))

/-- 10_state.md R33: phase IDLE with `rst = 0`. Without `cmd_valid` nothing changes; with it the four registers latch the
command and the phase is BUSY, `RES` and `ERR` unchanged. -/
def Obligations.IdleEdgeAcceptsOrHolds : Prop :=
  ∀ s : State, s.inputs.rst = false → s.resetDone = true → s.phase = .idle →
    (s.inputs.cmdValid = false →
      step s = .next { s with edge := s.edge + 1, host := s.host.tail }) ∧
    (s.inputs.cmdValid = true →
      ∃ wait, step s = .next { s with
        op := s.inputs.cmd.op, ra := s.inputs.cmd.a, rb := s.inputs.cmd.b, rm := s.inputs.cmd.m
        phase := .busy, left := wait, edge := s.edge + 1, host := s.host.tail })

/-- Phase BUSY with `rst = 0` (10_state.md R34): while the computation is not finished nothing architectural changes. That
"not finished" is `left ≠ 0`, and that `left` then goes down by 1, is the model's choice (log 5). -/
def Obligations.BusyEdgeHoldsUntilFinished : Prop :=
  ∀ s : State, s.inputs.rst = false → s.resetDone = true → s.phase = .busy → s.left ≠ 0 →
    step s = .next { s with left := s.left - 1, edge := s.edge + 1, host := s.host.tail }

/-- 10_state.md R35: phase RESP with `rst = 0`. The outputs show the response; without `rsp_ready` nothing changes; with it
the phase is IDLE, `ERR` and `RES` keep their values, and a command presented at this edge is not accepted. -/
def Obligations.RespEdgeHoldsOrIsTaken : Prop :=
  ∀ s : State, s.inputs.rst = false → s.resetDone = true → s.phase = .resp →
    s.outputs.rspValid = true ∧ s.outputs.rspErr = s.err ∧ (s.err = 0 → s.outputs.rspResult = s.res) ∧
    commandAccepted s = none ∧
    (s.inputs.rspReady = false →
      step s = .next { s with edge := s.edge + 1, host := s.host.tail }) ∧
    (s.inputs.rspReady = true →
      step s = .next { s with phase := .idle, edge := s.edge + 1, host := s.host.tail })

/-- 10_state.md R36 (70_reset_and_hazards.md R165, R168, R169): an edge with `rst = 1` leads to IDLE from any phase, before or
after the first reset, and accepts no command and takes no response, whatever the other inputs. The values the other
registers take are unspecified and not stated. -/
def Obligations.ResetEdgeLeadsToIdleFromAnywhere : Prop :=
  ∀ s : State, s.inputs.rst = true → ∃ t, step s = .next t ∧ t.phase = .idle ∧ t.resetDone = true ∧
    t.outputs.cmdReady = true ∧ t.outputs.rspValid = false ∧
    commandAccepted s = none ∧ responseTaken s = none

/-- Reset cannot leave the block in a bad state (70_reset_and_hazards.md R169, 10_state.md R36): neither the other inputs at
the edge nor anything the registers held can be seen in the state it leaves. That the unspecified values depend on the
number of the edge only is the model's choice (log 2). -/
def Obligations.ResetEdgeForgetsTheStateBefore : Prop :=
  ∀ s s' : State, s.inputs.rst = true → s'.inputs.rst = true → s.edge = s'.edge → s.host.tail = s'.host.tail →
    step s = step s'

/-- The state after reset (10_state.md R40, 70_reset_and_hazards.md R166): IDLE, `cmd_ready = 1`, `rsp_valid = 0`. The values
of its other registers are the model's choice (log 1) and no part of this. -/
def Obligations.ResetStateIsIdleAndReady : Prop :=
  State.reset.phase = .idle ∧ State.reset.outputs.cmdReady = true ∧ State.reset.outputs.rspValid = false

/-- 10_state.md R37: the outputs as functions of the registers, after the first reset. The unspecified entries of the table
are not stated. -/
def Obligations.OutputsFollowThePhase : Prop :=
  ∀ s : State, s.resetDone = true →
    (s.outputs.cmdReady = true ↔ s.phase = .idle) ∧
    (s.outputs.rspValid = true ↔ s.phase = .resp) ∧
    (s.phase = .resp → s.outputs.rspErr = s.err ∧ (s.err = 0 → s.outputs.rspResult = s.res))

/-- The command registers hold (10_state.md R24, R25, R31): with `rst = 0` and after the first reset, an edge that accepts no command leaves `OP`, `RA`,
`RB`, `RM` as they are, in every phase. An edge that does accept one leaves exactly that command in them. -/
def Obligations.CommandRegistersHoldUntilTheNextAccept : Prop :=
  ∀ s : State, s.inputs.rst = false → s.resetDone = true →
    ∃ t, step s = .next t ∧ t.command = (commandAccepted s).getD s.command

/-- Liveness (10_state.md R34, 70_reset_and_hazards.md R177, R179): an accepted command is in BUSY for `LAT` edges, a finite
number of at least 1 whatever the free value `Config.latency` is, and its response waits after the last of them, unless a
reset comes first. That `LAT` is drawn at the accept is the model's choice (log 5). -/
def Obligations.AcceptedCommandReachesItsResponse : Prop :=
  ∀ s : State, s.resetDone = true → s.phase = .idle → s.inputs.cmdValid = true →
    ∀ lat, lat = Config.latency s.edge s.inputs.cmd + 1 → noReset (lat + 1) s →
      (∀ j, 1 ≤ j → j ≤ lat → ∃ u, core.run j s = .next u ∧ State.phase u = .busy) ∧
      ∃ t, core.run (lat + 1) s = .next t ∧ State.phase t = .resp ∧ held t = responseOf s.inputs.cmd

/-- 70_reset_and_hazards.md R173 (10_state.md R35): the block holds a response until the host takes it, for any number of
edges, unchanged on the ports, and accepts no command meanwhile. -/
def Obligations.ResponseIsHeldUntilTaken : Prop :=
  ∀ (k : Nat) (s : State), s.resetDone = true → s.phase = .resp → noReset k s → notTaken k s →
    accepted k s = [] ∧ responses k s = [] ∧
    ∃ t, core.run k s = .next t ∧ State.phase t = .resp ∧ State.err t = s.err ∧ State.res t = s.res

/-- 70_reset_and_hazards.md R174 (10_state.md R35): any command may follow any other at once. The edge after a response
handshake accepts a command presented there, and not the one presented at the handshake edge. -/
def Obligations.NextCommandIsAcceptedRightAfterTheHandshake : Prop :=
  ∀ s : State, s.resetDone = true → s.phase = .resp → noReset 2 s → s.inputs.rspReady = true →
    s.tick.inputs.cmdValid = true →
    accepted 2 s = [s.tick.inputs.cmd] ∧ responses 2 s = [held s] ∧
    ∃ t, core.run 2 s = .next t ∧ State.phase t = .busy ∧ State.command t = s.tick.inputs.cmd

/-! ### The whole machine -/

/-- The invariant holds after reset. -/
def Obligations.InvariantHoldsAtReset : Prop := Inv State.reset

/-- The invariant (10_state.md R32, R38, R39): once reset has been given, a waiting response is the response of the latched
command. Every step keeps it, from every state that meets it. -/
def Obligations.EveryStepKeepsTheInvariant : Prop :=
  ∀ s t : State, Inv s → step s = .next t → Inv t

/-- What the response ports can show (30_encoding.md R71, R72, R73), in every state that meets the invariant: code 3 never;
with code OK a reduced value for the arithmetic opcodes when m >= 1, 0 for `MOD_ADD` with m = 0, and 0 or 1 for
`IS_PRIME`. -/
def Obligations.ShownResponseIsReduced : Prop :=
  ∀ s : State, Inv s → s.outputs.rspValid = true →
    s.outputs.rspErr ≠ 3 ∧
    (s.outputs.rspErr = 0 →
      (s.op ≠ 3 → s.rm ≠ 0 → s.outputs.rspResult.toNat < s.rm.toNat) ∧
      (s.op ≠ 3 → s.rm = 0 → s.op = 0 ∧ s.outputs.rspResult = 0) ∧
      (s.op = 3 → s.outputs.rspResult = 0 ∨ s.outputs.rspResult = 1))

/-- 10_state.md R38 (20_memory.md R57): after a reset and until the next, the k-th response taken is the response of the k-th
command accepted, whatever the host does and however long a command takes; at most one command is without its response,
and no response comes without a command. -/
def Obligations.ResponsesAnswerCommandsInOrder : Prop :=
  ∀ (k : Nat) (s : State), s.resetDone = true → s.phase = .idle → noReset k s →
    ∃ served pending : List Command, accepted k s = served ++ pending ∧ pending.length ≤ 1 ∧
      responses k s = served.map responseOf

/-- 10_state.md R39 (R32, 70_reset_and_hazards.md R169): what the registers hold in IDLE cannot be seen, ever. Change all six
of them in an idle state: the same commands are accepted and the same responses taken at the next k edges, resets
included. So no observation rests on the register values that State.reset names (log 1). That the same number of edges shows
the same events needs a latency that does not depend on what the registers held: the model draws it by the edge and the
command only, its choice (log 5), which 70_reset_and_hazards.md R177 does not promise. -/
def Obligations.IdleRegistersCannotBeSeen : Prop :=
  ∀ (k : Nat) (s : State) (c : Command) (e : U2) (v : U64), s.resetDone = true → s.phase = .idle →
    accepted k { s.latchCommand c with err := e, res := v } = accepted k s ∧
    responses k { s.latchCommand c with err := e, res := v } = responses k s

/-- 00_scope.md R13, in terms of the block, for the keys of R11: for distinct primes p, q with n = p * q, and e * d congruent
to 1 modulo lcm(p - 1, q - 1), `MOD_POW m, e, n` completes OK for every message m < n, and `MOD_POW` of its result with d and n,
in any state, completes OK with m (42_mod_pow.md R110 gives both powers). -/
def Obligations.ModPowRoundTripRecoversTheMessage : Prop :=
  ∀ (p q : Nat) (m e d n : U64), p.Prime → q.Prime → p ≠ q → n.toNat = p * q →
    e.toNat * d.toNat ≡ 1 [MOD Nat.lcm (p - 1) (q - 1)] → m.toNat < n.toNat →
    ∀ s s' : State, ∃ t t', exec (.modPow m e n) s = .next t ∧ t.err = 0 ∧
      exec (.modPow t.res d n) s' = .next t' ∧ t'.err = 0 ∧ t'.res = m
end

