-- ==== Sys2Proof/Laws/Decode.lean ====
section
/-! SUPPORT. The opcode map and the packed word, read and written: each undoes the other (30_encoding.md R65, R66). -/

namespace Sys2Proof

/-- The fields of an instruction decode to it. -/
theorem decode_command (i : Instr) : i.command.decode = i := by
  cases i <;> rfl

/-- Every value of `cmd_op` is one of the four opcodes. -/
theorem opcode_cases (o : U2) : o = 0 ∨ o = 1 ∨ o = 2 ∨ o = 3 := by
  revert o
  decide

/-- Decoding loses no field of a command, the ignored ones of `IS_PRIME` among them. -/
theorem command_decode (c : Command) : c.decode.command = c := by
  obtain ⟨o, a, b, m⟩ := c
  rcases opcode_cases o with rfl | rfl | rfl | rfl <;> rfl

/-- A bit of the packed word, by the field it belongs to. -/
theorem word_getLsbD (c : Command) (i : Nat) :
    c.word.getLsbD i =
      if i < 64 then c.m.getLsbD i
      else if i < 128 then c.b.getLsbD (i - 64)
      else if i < 192 then c.a.getLsbD (i - 128)
      else c.op.getLsbD (i - 192) := by
  simp only [Command.word, BitVec.getLsbD_append]
  split_ifs <;> first | omega | congr 1

/-- A bit of a field cut out of a word. -/
theorem cut_getLsbD (w : BitVec 194) (start i len : Nat) (h : i < len) :
    (w.extractLsb' start len).getLsbD i = w.getLsbD (start + i) := by
  rw [BitVec.getLsbD_extractLsb', decide_eq_true h, Bool.true_and]

/-- The fields of a packed word are the fields packed. -/
theorem ofWord_word (c : Command) : Command.ofWord c.word = c := by
  have hop : c.word.extractLsb' 192 2 = c.op := by
    refine BitVec.eq_of_getLsbD_eq fun i hi => ?_
    rw [cut_getLsbD _ _ _ _ hi, word_getLsbD, if_neg (by omega), if_neg (by omega), if_neg (by omega),
      Nat.add_sub_cancel_left]
  have ha : c.word.extractLsb' 128 64 = c.a := by
    refine BitVec.eq_of_getLsbD_eq fun i hi => ?_
    rw [cut_getLsbD _ _ _ _ hi, word_getLsbD, if_neg (by omega), if_neg (by omega), if_pos (by omega),
      Nat.add_sub_cancel_left]
  have hb : c.word.extractLsb' 64 64 = c.b := by
    refine BitVec.eq_of_getLsbD_eq fun i hi => ?_
    rw [cut_getLsbD _ _ _ _ hi, word_getLsbD, if_neg (by omega), if_pos (by omega), Nat.add_sub_cancel_left]
  have hm : c.word.extractLsb' 0 64 = c.m := by
    refine BitVec.eq_of_getLsbD_eq fun i hi => ?_
    rw [cut_getLsbD _ _ _ _ hi, word_getLsbD, if_pos (by omega), Nat.zero_add]
  unfold Command.ofWord
  rw [hop, ha, hb, hm]

/-- Packing the fields of a word gives the word. -/
theorem word_ofWord (w : BitVec 194) : (Command.ofWord w).word = w := by
  refine BitVec.eq_of_getLsbD_eq fun i hi => ?_
  rw [word_getLsbD]
  unfold Command.ofWord
  split_ifs with h1 h2 h3
  · rw [cut_getLsbD _ _ _ _ h1, Nat.zero_add]
  · rw [cut_getLsbD _ _ _ _ (by omega), Nat.add_sub_cancel' (by omega)]
  · rw [cut_getLsbD _ _ _ _ (by omega), Nat.add_sub_cancel' (by omega)]
  · rw [cut_getLsbD _ _ _ _ (by omega), Nat.add_sub_cancel' (by omega)]

end Sys2Proof
end

