-- ==== Sys2Proof/Laws/Units.lean ====
section
/-! SUPPORT. What the unit functions compute, once each: the exact value modulo m of `mod_add` (40_mod_add.md R89),
`mod_mul` (41_mod_mul.md R99), `mod_pow` (42_mod_pow.md R110). Later proofs cite these and never unfold a loop. -/

namespace Sys2Proof.Machine

/-- Loading a working register changes no value. -/
theorem latch_eq {α : Type} (v : U64) (k : U64 → α) : latch v k = k v := by
  unfold latch
  split
  · next h => rw [show v = 0 from BitVec.eq_of_toNat_eq h]
  · next n h => rw [show BitVec.ofNat 64 (n + 1) = v from by rw [← Nat.succ_eq_add_one, ← h, BitVec.ofNat_toNat, BitVec.setWidth_eq]]

theorem toNat_pos {m : U64} (hm : m ≠ 0) : 0 < m.toNat := by
  rcases Nat.eq_zero_or_pos m.toNat with h | h
  · exact absurd (BitVec.eq_of_toNat_eq h) hm
  · exact h

/-- `mod_add` with modulus 0 (40_mod_add.md R90). -/
theorem modAdd_zero (a b : U64) : modAdd a b 0 = 0 := by simp [modAdd]

/-- 40_mod_add.md R89: the exact sum modulo m, though no value is wider than 64 bits. -/
theorem modAdd_toNat {m : U64} (hm : m ≠ 0) (a b : U64) :
    (modAdd a b m).toNat = (a.toNat + b.toNat) % m.toNat := by
  have hpos := toNat_pos hm
  have ha := Nat.mod_lt a.toNat hpos
  have hb := Nat.mod_lt b.toNat hpos
  have hlt := m.isLt
  have ht : (m - b % m).toNat = m.toNat - b.toNat % m.toNat := by
    rw [BitVec.toNat_sub_of_le (by rw [BitVec.le_def, BitVec.toNat_umod]; omega), BitVec.toNat_umod]
  have hsum : (a.toNat + b.toNat) % m.toNat = (a.toNat % m.toNat + b.toNat % m.toNat) % m.toNat :=
    Nat.add_mod _ _ _
  have key : (modAdd a b m).toNat =
      if m.toNat - b.toNat % m.toNat ≤ a.toNat % m.toNat then a.toNat % m.toNat - (m.toNat - b.toNat % m.toNat)
      else a.toNat % m.toNat + b.toNat % m.toNat := by
    simp only [modAdd, hm, if_false, ge_iff_le, BitVec.le_def, ht, BitVec.toNat_umod]
    split
    · next h =>
      rw [BitVec.toNat_sub_of_le (by rw [BitVec.le_def, ht, BitVec.toNat_umod]; exact h), ht, BitVec.toNat_umod]
    · next h =>
      rw [BitVec.toNat_add, BitVec.toNat_umod, BitVec.toNat_umod, Nat.mod_eq_of_lt (by omega)]
  rw [key, hsum]
  generalize a.toNat % m.toNat = x at *
  generalize b.toNat % m.toNat = y at *
  split
  · rw [Nat.mod_eq_sub_mod (by omega), Nat.mod_eq_of_lt (by omega)]
    omega
  · rw [Nat.mod_eq_of_lt (by omega)]

theorem modAdd_lt {m : U64} (hm : m ≠ 0) (a b : U64) : (modAdd a b m).toNat < m.toNat := by
  rw [modAdd_toNat hm]
  exact Nat.mod_lt _ (toNat_pos hm)

theorem bit_toNat (b : U64) (i : Nat) : b.getLsbD i = decide (b.toNat / 2 ^ i % 2 = 1) := by
  rw [BitVec.getLsbD, Nat.testBit_eq_decide_div_mod_eq]

/-- `bitlen(b)` bits hold `b`. -/
theorem lt_two_pow_bitlen (b : U64) : b.toNat < 2 ^ bitlen b := by
  unfold bitlen
  split
  · next h => simp [h]
  · next h => exact Nat.lt_log2_self

/-- What the scan computes, for any operation that a map `φ` carries to a multiplication: the power of `φ x` that the
scanned bits of `b` write. -/
theorem scanLoop_hom {M : Type} [Monoid M] (φ : U64 → M) (op : U64 → U64 → U64)
    (hop : ∀ u v, φ (op u v) = φ u * φ v) (b : U64) :
    ∀ k i r x, φ (scanLoop op b k i r x) = φ r * φ x ^ (b.toNat / 2 ^ i % 2 ^ k) := by
  intro k
  induction k with
  | zero => intro i r x; simp [scanLoop, Nat.mod_one]
  | succ k ih =>
    intro i r x
    have hr : φ (if b.getLsbD i then op r x else r) = φ r * φ x ^ (b.toNat / 2 ^ i % 2) := by
      rw [bit_toNat]
      rcases Nat.mod_two_eq_zero_or_one (b.toNat / 2 ^ i) with h | h <;> simp [h, hop]
    have hbits : b.toNat / 2 ^ i % 2 ^ (k + 1)
        = b.toNat / 2 ^ i % 2 + 2 * (b.toNat / 2 ^ (i + 1) % 2 ^ k) := by
      rw [pow_succ 2 i, ← Nat.div_div_eq_div_mul, pow_succ' 2 k, Nat.mod_mul]
    simp only [scanLoop, latch_eq]
    rw [ih, hr, hbits, pow_add (φ x), mul_assoc]
    rcases Nat.eq_zero_or_pos k with rfl | hk
    · simp [Nat.mod_one]
    · rw [if_neg (by omega), hop, ← pow_two, ← pow_mul]

/-- The scan returns its starting accumulator or a value of the operation. -/
theorem scanLoop_keeps (P : U64 → Prop) (op : U64 → U64 → U64) (hop : ∀ u v, P (op u v)) (b : U64) :
    ∀ k i r x, P r → P (scanLoop op b k i r x) := by
  intro k
  induction k with
  | zero => intro i r x hr; exact hr
  | succ k ih =>
    intro i r x hr
    simp only [scanLoop, latch_eq]
    apply ih
    split
    · exact hop _ _
    · exact hr

theorem bits_all (b : U64) {k : Nat} (hk : bitlen b ≤ k) : b.toNat / 2 ^ 0 % 2 ^ k = b.toNat := by
  rw [pow_zero, Nat.div_one, Nat.mod_eq_of_lt]
  exact lt_of_lt_of_le (lt_two_pow_bitlen b) (Nat.pow_le_pow_right (by norm_num) hk)

/-- 41_mod_mul.md R99, for any number of iterations that covers the bits of `b` (R100): the exact product modulo m. -/
theorem scanLoop_modAdd_toNat {m : U64} (hm : m ≠ 0) (a b : U64) {k : Nat} (hk : bitlen b ≤ k) :
    (scanLoop (fun u v => modAdd u v m) b k 0 0 a).toNat = a.toNat * b.toNat % m.toNat := by
  have hlt : (scanLoop (fun u v => modAdd u v m) b k 0 0 a).toNat < m.toNat :=
    scanLoop_keeps (fun u => u.toNat < m.toNat) _ (fun u v => modAdd_lt hm u v) b k 0 0 a (by simpa using toNat_pos hm)
  have h := scanLoop_hom (fun u => Multiplicative.ofAdd (u.toNat : ZMod m.toNat)) (fun u v => modAdd u v m)
    (fun u v => by rw [modAdd_toNat hm, ZMod.natCast_mod, Nat.cast_add, ofAdd_add]) b k 0 0 a
  rw [bits_all b hk, ← ofAdd_nsmul, ← ofAdd_add] at h
  have h' := Multiplicative.ofAdd.injective h
  have h2 : ((scanLoop (fun u v => modAdd u v m) b k 0 0 a).toNat : ZMod m.toNat) = ((a.toNat * b.toNat : Nat) : ZMod m.toNat) := by
    rw [h']
    simp [mul_comm]
  rw [ZMod.natCast_eq_natCast_iff'] at h2
  rw [← h2, Nat.mod_eq_of_lt hlt]

theorem modMul_toNat {m : U64} (hm : m ≠ 0) (a b : U64) :
    (modMul a b m).toNat = a.toNat * b.toNat % m.toNat :=
  scanLoop_modAdd_toNat hm a b le_rfl

theorem modMul_lt {m : U64} (hm : m ≠ 0) (a b : U64) : (modMul a b m).toNat < m.toNat := by
  rw [modMul_toNat hm]
  exact Nat.mod_lt _ (toNat_pos hm)

/-- 42_mod_pow.md R110, for any number of iterations that covers the bits of `b` (R112): the exact power modulo m. -/
theorem scanLoop_modMul_toNat {m : U64} (hm : m ≠ 0) (a b : U64) {k : Nat} (hk : bitlen b ≤ k) :
    (scanLoop (fun u v => modMul u v m) b k 0 (1 % m) a).toNat = a.toNat ^ b.toNat % m.toNat := by
  have hone : (1 % m).toNat = 1 % m.toNat := by rw [BitVec.toNat_umod]; rfl
  have hlt : (scanLoop (fun u v => modMul u v m) b k 0 (1 % m) a).toNat < m.toNat :=
    scanLoop_keeps (fun u => u.toNat < m.toNat) _ (fun u v => modMul_lt hm u v) b k 0 (1 % m) a
      (by rw [hone]; exact Nat.mod_lt _ (toNat_pos hm))
  have h := scanLoop_hom (fun u => (u.toNat : ZMod m.toNat)) (fun u v => modMul u v m)
    (fun u v => by rw [modMul_toNat hm, ZMod.natCast_mod, Nat.cast_mul]) b k 0 (1 % m) a
  rw [bits_all b hk, hone, ZMod.natCast_mod, Nat.cast_one, one_mul, ← Nat.cast_pow, ZMod.natCast_eq_natCast_iff'] at h
  rw [← h, Nat.mod_eq_of_lt hlt]

theorem modPow_toNat {m : U64} (hm : m ≠ 0) (a b : U64) :
    (modPow a b m).toNat = a.toNat ^ b.toNat % m.toNat :=
  scanLoop_modMul_toNat hm a b le_rfl

theorem modPow_lt {m : U64} (hm : m ≠ 0) (a b : U64) : (modPow a b m).toNat < m.toNat := by
  rw [modPow_toNat hm]
  exact Nat.mod_lt _ (toNat_pos hm)

end Sys2Proof.Machine
end

