-- ==== Sys2Proof/Laws/IsPrime.lean ====
section
/-! SUPPORT. What the primality tester computes, once per function: trial division, the decomposition of n - 1, a round, the
rounds (43_is_prime.md R120 to R123). -/

namespace Sys2Proof.Machine

open Sys2Proof.Safety

/-- Every entry of the base table is a prime number (20_memory.md R51). -/
theorem baseTable_prime : ∀ p ∈ baseTable, Nat.Prime p.toNat := by
  simp only [baseTable, List.forall_mem_cons, List.not_mem_nil, false_implies, implies_true, and_true]
  refine ⟨?_, ?_, ?_, ?_, ?_, ?_, ?_, ?_, ?_, ?_, ?_, ?_⟩ <;> exact of_decide_eq_true rfl

theorem umod_eq_zero_iff (n p : U64) : n % p = 0 ↔ p.toNat ∣ n.toNat := by
  rw [← BitVec.toNat_inj, BitVec.toNat_umod, Nat.dvd_iff_mod_eq_zero]
  rfl

/-- Step 1 over any table of primes, whatever its order (43_is_prime.md R120): PRIME for an entry, COMPOSITE for a
multiple of an entry, no verdict otherwise. -/
theorem trialDivision_eq (n : U64) (l : List U64) (hl : ∀ p ∈ l, Nat.Prime p.toNat) :
    trialDivision n l =
      if n ∈ l then some .prime else if ∃ p ∈ l, n % p = 0 then some .composite else none := by
  induction l with
  | nil => simp [trialDivision]
  | cons p ps ih =>
    have ih' := ih fun q hq => hl q (List.mem_cons_of_mem _ hq)
    by_cases hnp : n = p
    · simp [trialDivision, hnp]
    · by_cases hdiv : n % p = 0
      · have hmem : n ∉ ps := by
          intro hn
          have h1 := hl n (List.mem_cons_of_mem _ hn)
          have h2 := hl p List.mem_cons_self
          have h3 := (Nat.prime_dvd_prime_iff_eq h2 h1).1 ((umod_eq_zero_iff n p).1 hdiv)
          exact hnp (BitVec.eq_of_toNat_eq h3.symm)
        simp [trialDivision, hnp, hdiv, hmem]
      · have hex : (∃ q ∈ p :: ps, n % q = 0) ↔ ∃ q ∈ ps, n % q = 0 := by
          simp only [List.mem_cons, exists_eq_or_imp, hdiv, false_or]
        have hin : n ∈ p :: ps ↔ n ∈ ps := by simp only [List.mem_cons, hnp, false_or]
        rw [trialDivision, if_neg hnp, if_neg hdiv, ih']
        simp only [hin, hex]

/-- Step 3 without its order: PRIME if and only if every base passes (43_is_prime.md R122, R123). -/
theorem rounds_eq_prime (n d : U64) (s : Nat) (l : List U64) :
    rounds n d s l = .prime ↔ ∀ a ∈ l, basePasses n d s a = true := by
  induction l with
  | nil => simp [rounds]
  | cons a rest ih =>
    by_cases h : basePasses n d s a = true
    · simp [rounds, h, ih]
    · simp [rounds, h]

theorem trailingZeros_spec (v : U64) :
    ∀ k i, i + k = 64 → v.toNat % 2 ^ i = 0 → v.toNat ≠ 0 →
      trailingZeros v k i < 64 ∧ v.toNat % 2 ^ trailingZeros v k i = 0 ∧ v.toNat / 2 ^ trailingZeros v k i % 2 = 1 := by
  intro k
  induction k with
  | zero =>
    intro i hi hz hne
    have : i = 64 := by omega
    subst this
    rw [Nat.mod_eq_of_lt v.isLt] at hz
    exact absurd hz hne
  | succ k ih =>
    intro i hi hz hne
    unfold trailingZeros
    split
    · next h =>
      rw [bit_toNat, decide_eq_true_eq] at h
      exact ⟨by omega, hz, h⟩
    · next h =>
      rw [bit_toNat, decide_eq_true_eq] at h
      refine ih (i + 1) (by omega) ?_ hne
      have h0 : v.toNat / 2 ^ i % 2 = 0 := by omega
      rw [pow_succ, Nat.mod_mul, hz, h0, Nat.mul_zero]

/-- Step 2 (43_is_prime.md R121): v = (v div 2^ctz v) * 2^ctz v with an odd quotient. -/
theorem ctz_spec {v : U64} (hv : v ≠ 0) :
    ctz v < 64 ∧ v.toNat = (v >>> ctz v).toNat * 2 ^ ctz v ∧ (v >>> ctz v).toNat % 2 = 1 := by
  obtain ⟨h1, h2, h3⟩ := trailingZeros_spec v 64 0 rfl (by simp [Nat.mod_one]) (by have := toNat_pos hv; omega)
  refine ⟨h1, ?_, ?_⟩
  · rw [BitVec.toNat_ushiftRight, Nat.shiftRight_eq_div_pow]
    exact (Nat.div_mul_cancel (Nat.dvd_of_mod_eq_zero h2)).symm
  · rw [BitVec.toNat_ushiftRight, Nat.shiftRight_eq_div_pow]
    exact h3

theorem sub_one_toNat {n : U64} (hn : n ≠ 0) : (n - 1).toNat = n.toNat - 1 := by
  have := toNat_pos hn
  rw [BitVec.toNat_sub_of_le (by rw [BitVec.le_def]; exact this)]
  rfl

/-- The squarings of a round (43_is_prime.md R122): some x^(2^j), 1 <= j <= k, is n - 1 modulo n. -/
theorem squaringsPass_iff {n : U64} (hn : n ≠ 0) :
    ∀ k x, squaringsPass n k x = true ↔ ∃ j, j < k ∧ x.toNat ^ 2 ^ (j + 1) % n.toNat = n.toNat - 1 := by
  intro k
  induction k with
  | zero => simp [squaringsPass]
  | succ k ih =>
    intro x
    have hx : (modMul x x n).toNat = x.toNat ^ 2 % n.toNat := by rw [modMul_toNat hn, pow_two]
    have hsq : ∀ j, (modMul x x n).toNat ^ 2 ^ (j + 1) % n.toNat = x.toNat ^ 2 ^ (j + 1 + 1) % n.toNat := by
      intro j
      rw [hx, ← Nat.pow_mod, ← pow_mul, ← pow_succ']
    have heq : modMul x x n = n - 1 ↔ x.toNat ^ 2 ^ (0 + 1) % n.toNat = n.toNat - 1 := by
      rw [← BitVec.toNat_inj, hx, sub_one_toNat hn]
      simp
    simp only [squaringsPass, latch_eq]
    by_cases h : modMul x x n = n - 1
    · rw [if_pos h]
      exact iff_of_true rfl ⟨0, by omega, heq.1 h⟩
    · rw [if_neg h, ih]
      constructor
      · rintro ⟨j, hj, he⟩
        exact ⟨j + 1, by omega, by rw [← hsq]; exact he⟩
      · rintro ⟨j, hj, he⟩
        cases j with
        | zero => exact absurd (heq.2 he) h
        | succ j => exact ⟨j, by omega, by rw [hsq]; exact he⟩

/-- One round for a base that n does not divide (43_is_prime.md R122), in the integers. -/
theorem basePasses_iff {n d base : U64} {s : Nat} (hn : n ≠ 0) (h1 : 1 < n.toNat) (hs : 1 ≤ s)
    (hbase : base % n ≠ 0) :
    basePasses n d s base = true ↔
      base.toNat ^ d.toNat % n.toNat = 1 ∨
        ∃ j < s, base.toNat ^ (d.toNat * 2 ^ j) % n.toNat = n.toNat - 1 := by
  have hx : (modPow (base % n) d n).toNat = base.toNat ^ d.toNat % n.toNat := by
    rw [modPow_toNat hn, BitVec.toNat_umod, ← Nat.pow_mod]
  have hone : modPow (base % n) d n = 1 ↔ base.toNat ^ d.toNat % n.toNat = 1 := by
    rw [← BitVec.toNat_inj, hx]; rfl
  have hlast : modPow (base % n) d n = n - 1 ↔ base.toNat ^ (d.toNat * 2 ^ 0) % n.toNat = n.toNat - 1 := by
    rw [← BitVec.toNat_inj, hx, sub_one_toNat hn, pow_zero, mul_one]
  have hpow : ∀ j, (modPow (base % n) d n).toNat ^ 2 ^ (j + 1) % n.toNat
      = base.toNat ^ (d.toNat * 2 ^ (j + 1)) % n.toNat := by
    intro j
    rw [hx, ← Nat.pow_mod, ← pow_mul]
  simp only [basePasses, latch_eq, if_neg hbase]
  by_cases h : modPow (base % n) d n = 1 ∨ modPow (base % n) d n = n - 1
  · rw [if_pos h]
    refine iff_of_true rfl ?_
    rcases h with h | h
    · exact .inl (hone.1 h)
    · exact .inr ⟨0, by omega, hlast.1 h⟩
  · rw [if_neg h, squaringsPass_iff hn]
    constructor
    · rintro ⟨j, hj, he⟩
      exact .inr ⟨j + 1, by omega, by rw [← hpow]; exact he⟩
    · rintro (he | ⟨j, hj, he⟩)
      · exact absurd (.inl (hone.2 he)) h
      · cases j with
        | zero => exact absurd (.inr (hlast.2 he)) h
        | succ j => exact ⟨j, by omega, by rw [hpow]; exact he⟩

/-- The decomposition n - 1 = d * 2^s with d odd is unique. -/
theorem oddPart_unique {d d' s s' : Nat} (hd : d % 2 = 1) (hd' : d' % 2 = 1) (h : d * 2 ^ s = d' * 2 ^ s') :
    d = d' ∧ s = s' := by
  have hs : s = s' := by
    rcases Nat.lt_trichotomy s s' with hlt | heq | hlt
    · obtain ⟨k, rfl⟩ := Nat.exists_eq_add_of_lt hlt
      rw [show 2 ^ (s + k + 1) = 2 ^ s * (2 * 2 ^ k) by ring, mul_comm d, mul_left_comm] at h
      have := Nat.eq_of_mul_eq_mul_left (by positivity) h
      have h2 : d = 2 * (d' * 2 ^ k) := by rw [this]; ring
      omega
    · exact heq
    · obtain ⟨k, rfl⟩ := Nat.exists_eq_add_of_lt hlt
      rw [show 2 ^ (s' + k + 1) = 2 ^ s' * (2 * 2 ^ k) by ring, mul_comm d', mul_left_comm] at h
      have := Nat.eq_of_mul_eq_mul_left (by positivity) h
      have h2 : d' = 2 * (d * 2 ^ k) := by rw [← this]; ring
      omega
  subst hs
  exact ⟨Nat.eq_of_mul_eq_mul_right (by positivity) h, rfl⟩

/-- 43_is_prime.md R126: n >= 41 if trial division gives no verdict. -/
theorem trialDivision_none_ge {n : U64} (h2 : 2 ≤ n.toNat) (h : trialDivision n baseTable = none) : 41 ≤ n.toNat := by
  by_contra hlt
  have hall : ∀ k < 41, 2 ≤ k → trialDivision (BitVec.ofNat 64 k) baseTable ≠ none := by decide
  refine hall n.toNat (by omega) h2 ?_
  rw [BitVec.ofNat_toNat, BitVec.setWidth_eq]
  exact h

end Sys2Proof.Machine
end

