-- ==== Sys2Proof/Laws/State.lean ====
section
/-! SUPPORT. The small lemmas of the state: what each update does to each field. One lemma per field per update, true by
`rfl`, so that no later proof unfolds a record update. -/

namespace Sys2Proof.Machine

@[simp] theorem State.tick_phase (s : State) : (s.tick).phase = s.phase := rfl
@[simp] theorem State.tick_op (s : State) : (s.tick).op = s.op := rfl
@[simp] theorem State.tick_ra (s : State) : (s.tick).ra = s.ra := rfl
@[simp] theorem State.tick_rb (s : State) : (s.tick).rb = s.rb := rfl
@[simp] theorem State.tick_rm (s : State) : (s.tick).rm = s.rm := rfl
@[simp] theorem State.tick_res (s : State) : (s.tick).res = s.res := rfl
@[simp] theorem State.tick_err (s : State) : (s.tick).err = s.err := rfl
@[simp] theorem State.tick_resetDone (s : State) : (s.tick).resetDone = s.resetDone := rfl
@[simp] theorem State.tick_left (s : State) : (s.tick).left = s.left := rfl
@[simp] theorem State.tick_edge (s : State) : (s.tick).edge = s.edge + 1 := rfl
@[simp] theorem State.tick_host (s : State) : (s.tick).host = s.host.tail := rfl

@[simp] theorem State.latchCommand_phase (s : State) (c : Command) : (s.latchCommand c).phase = s.phase := rfl
@[simp] theorem State.latchCommand_op (s : State) (c : Command) : (s.latchCommand c).op = c.op := rfl
@[simp] theorem State.latchCommand_ra (s : State) (c : Command) : (s.latchCommand c).ra = c.a := rfl
@[simp] theorem State.latchCommand_rb (s : State) (c : Command) : (s.latchCommand c).rb = c.b := rfl
@[simp] theorem State.latchCommand_rm (s : State) (c : Command) : (s.latchCommand c).rm = c.m := rfl
@[simp] theorem State.latchCommand_res (s : State) (c : Command) : (s.latchCommand c).res = s.res := rfl
@[simp] theorem State.latchCommand_err (s : State) (c : Command) : (s.latchCommand c).err = s.err := rfl
@[simp] theorem State.latchCommand_resetDone (s : State) (c : Command) : (s.latchCommand c).resetDone = s.resetDone := rfl
@[simp] theorem State.latchCommand_left (s : State) (c : Command) : (s.latchCommand c).left = s.left := rfl
@[simp] theorem State.latchCommand_edge (s : State) (c : Command) : (s.latchCommand c).edge = s.edge := rfl
@[simp] theorem State.latchCommand_host (s : State) (c : Command) : (s.latchCommand c).host = s.host := rfl

@[simp] theorem State.accept_phase (s : State) (c : Command) : (s.accept c).phase = .busy := rfl
@[simp] theorem State.accept_op (s : State) (c : Command) : (s.accept c).op = c.op := rfl
@[simp] theorem State.accept_ra (s : State) (c : Command) : (s.accept c).ra = c.a := rfl
@[simp] theorem State.accept_rb (s : State) (c : Command) : (s.accept c).rb = c.b := rfl
@[simp] theorem State.accept_rm (s : State) (c : Command) : (s.accept c).rm = c.m := rfl
@[simp] theorem State.accept_res (s : State) (c : Command) : (s.accept c).res = s.res := rfl
@[simp] theorem State.accept_err (s : State) (c : Command) : (s.accept c).err = s.err := rfl
@[simp] theorem State.accept_resetDone (s : State) (c : Command) : (s.accept c).resetDone = s.resetDone := rfl
@[simp] theorem State.accept_left (s : State) (c : Command) : (s.accept c).left = Config.latency s.edge c := rfl
@[simp] theorem State.accept_edge (s : State) (c : Command) : (s.accept c).edge = s.edge + 1 := rfl
@[simp] theorem State.accept_host (s : State) (c : Command) : (s.accept c).host = s.host.tail := rfl

@[simp] theorem State.wait_phase (s : State) : (s.wait).phase = s.phase := rfl
@[simp] theorem State.wait_op (s : State) : (s.wait).op = s.op := rfl
@[simp] theorem State.wait_ra (s : State) : (s.wait).ra = s.ra := rfl
@[simp] theorem State.wait_rb (s : State) : (s.wait).rb = s.rb := rfl
@[simp] theorem State.wait_rm (s : State) : (s.wait).rm = s.rm := rfl
@[simp] theorem State.wait_res (s : State) : (s.wait).res = s.res := rfl
@[simp] theorem State.wait_err (s : State) : (s.wait).err = s.err := rfl
@[simp] theorem State.wait_resetDone (s : State) : (s.wait).resetDone = s.resetDone := rfl
@[simp] theorem State.wait_left (s : State) : (s.wait).left = s.left - 1 := rfl
@[simp] theorem State.wait_edge (s : State) : (s.wait).edge = s.edge + 1 := rfl
@[simp] theorem State.wait_host (s : State) : (s.wait).host = s.host.tail := rfl

@[simp] theorem State.complete_phase (s : State) (e : U2) (v : U64) : (s.complete e v).phase = .resp := rfl
@[simp] theorem State.complete_op (s : State) (e : U2) (v : U64) : (s.complete e v).op = s.op := rfl
@[simp] theorem State.complete_ra (s : State) (e : U2) (v : U64) : (s.complete e v).ra = s.ra := rfl
@[simp] theorem State.complete_rb (s : State) (e : U2) (v : U64) : (s.complete e v).rb = s.rb := rfl
@[simp] theorem State.complete_rm (s : State) (e : U2) (v : U64) : (s.complete e v).rm = s.rm := rfl
@[simp] theorem State.complete_res (s : State) (e : U2) (v : U64) : (s.complete e v).res = v := rfl
@[simp] theorem State.complete_err (s : State) (e : U2) (v : U64) : (s.complete e v).err = e := rfl
@[simp] theorem State.complete_resetDone (s : State) (e : U2) (v : U64) : (s.complete e v).resetDone = s.resetDone := rfl
@[simp] theorem State.complete_left (s : State) (e : U2) (v : U64) : (s.complete e v).left = s.left := rfl
@[simp] theorem State.complete_edge (s : State) (e : U2) (v : U64) : (s.complete e v).edge = s.edge + 1 := rfl
@[simp] theorem State.complete_host (s : State) (e : U2) (v : U64) : (s.complete e v).host = s.host.tail := rfl

@[simp] theorem State.takeResponse_phase (s : State) : (s.takeResponse).phase = .idle := rfl
@[simp] theorem State.takeResponse_op (s : State) : (s.takeResponse).op = s.op := rfl
@[simp] theorem State.takeResponse_ra (s : State) : (s.takeResponse).ra = s.ra := rfl
@[simp] theorem State.takeResponse_rb (s : State) : (s.takeResponse).rb = s.rb := rfl
@[simp] theorem State.takeResponse_rm (s : State) : (s.takeResponse).rm = s.rm := rfl
@[simp] theorem State.takeResponse_res (s : State) : (s.takeResponse).res = s.res := rfl
@[simp] theorem State.takeResponse_err (s : State) : (s.takeResponse).err = s.err := rfl
@[simp] theorem State.takeResponse_resetDone (s : State) : (s.takeResponse).resetDone = s.resetDone := rfl
@[simp] theorem State.takeResponse_left (s : State) : (s.takeResponse).left = s.left := rfl
@[simp] theorem State.takeResponse_edge (s : State) : (s.takeResponse).edge = s.edge + 1 := rfl
@[simp] theorem State.takeResponse_host (s : State) : (s.takeResponse).host = s.host.tail := rfl

@[simp] theorem State.resetEdge_phase (s : State) : (s.resetEdge).phase = .idle := rfl
@[simp] theorem State.resetEdge_op (s : State) : (s.resetEdge).op = Config.unspecifiedOp s.edge := rfl
@[simp] theorem State.resetEdge_ra (s : State) : (s.resetEdge).ra = Config.unspecifiedRa s.edge := rfl
@[simp] theorem State.resetEdge_rb (s : State) : (s.resetEdge).rb = Config.unspecifiedRb s.edge := rfl
@[simp] theorem State.resetEdge_rm (s : State) : (s.resetEdge).rm = Config.unspecifiedRm s.edge := rfl
@[simp] theorem State.resetEdge_res (s : State) : (s.resetEdge).res = Config.unspecifiedRes s.edge := rfl
@[simp] theorem State.resetEdge_err (s : State) : (s.resetEdge).err = Config.unspecifiedErr s.edge := rfl
@[simp] theorem State.resetEdge_resetDone (s : State) : (s.resetEdge).resetDone = true := rfl
@[simp] theorem State.resetEdge_left (s : State) : (s.resetEdge).left = 0 := rfl
@[simp] theorem State.resetEdge_edge (s : State) : (s.resetEdge).edge = s.edge + 1 := rfl
@[simp] theorem State.resetEdge_host (s : State) : (s.resetEdge).host = s.host.tail := rfl

@[simp] theorem State.powerOnEdge_phase (s : State) : (s.powerOnEdge).phase = Config.unspecifiedPhase s.edge := rfl
@[simp] theorem State.powerOnEdge_op (s : State) : (s.powerOnEdge).op = Config.unspecifiedOp s.edge := rfl
@[simp] theorem State.powerOnEdge_ra (s : State) : (s.powerOnEdge).ra = Config.unspecifiedRa s.edge := rfl
@[simp] theorem State.powerOnEdge_rb (s : State) : (s.powerOnEdge).rb = Config.unspecifiedRb s.edge := rfl
@[simp] theorem State.powerOnEdge_rm (s : State) : (s.powerOnEdge).rm = Config.unspecifiedRm s.edge := rfl
@[simp] theorem State.powerOnEdge_res (s : State) : (s.powerOnEdge).res = Config.unspecifiedRes s.edge := rfl
@[simp] theorem State.powerOnEdge_err (s : State) : (s.powerOnEdge).err = Config.unspecifiedErr s.edge := rfl
@[simp] theorem State.powerOnEdge_resetDone (s : State) : (s.powerOnEdge).resetDone = s.resetDone := rfl
@[simp] theorem State.powerOnEdge_left (s : State) : (s.powerOnEdge).left = s.left := rfl
@[simp] theorem State.powerOnEdge_edge (s : State) : (s.powerOnEdge).edge = s.edge + 1 := rfl
@[simp] theorem State.powerOnEdge_host (s : State) : (s.powerOnEdge).host = s.host.tail := rfl

@[simp] theorem State.placeCommand_phase (s : State) (c : Command) : (s.placeCommand c).phase = .busy := rfl
@[simp] theorem State.placeCommand_op (s : State) (c : Command) : (s.placeCommand c).op = c.op := rfl
@[simp] theorem State.placeCommand_ra (s : State) (c : Command) : (s.placeCommand c).ra = c.a := rfl
@[simp] theorem State.placeCommand_rb (s : State) (c : Command) : (s.placeCommand c).rb = c.b := rfl
@[simp] theorem State.placeCommand_rm (s : State) (c : Command) : (s.placeCommand c).rm = c.m := rfl
@[simp] theorem State.placeCommand_res (s : State) (c : Command) : (s.placeCommand c).res = s.res := rfl
@[simp] theorem State.placeCommand_err (s : State) (c : Command) : (s.placeCommand c).err = s.err := rfl
@[simp] theorem State.placeCommand_resetDone (s : State) (c : Command) : (s.placeCommand c).resetDone = true := rfl
@[simp] theorem State.placeCommand_left (s : State) (c : Command) : (s.placeCommand c).left = 0 := rfl
@[simp] theorem State.placeCommand_edge (s : State) (c : Command) : (s.placeCommand c).edge = s.edge := rfl

/-- The command latched is the command in flight. -/
@[simp] theorem State.latchCommand_command (s : State) (c : Command) : (s.latchCommand c).command = c := rfl

@[simp] theorem State.accept_command (s : State) (c : Command) : (s.accept c).command = c := rfl

@[simp] theorem State.placeCommand_command (s : State) (c : Command) : (s.placeCommand c).command = c := rfl

@[simp] theorem State.tick_command (s : State) : s.tick.command = s.command := rfl

@[simp] theorem State.wait_command (s : State) : s.wait.command = s.command := rfl

@[simp] theorem State.complete_command (s : State) (e : U2) (v : U64) : (s.complete e v).command = s.command := rfl

@[simp] theorem State.takeResponse_command (s : State) : s.takeResponse.command = s.command := rfl

/-- A placed command meets no reset at the coming edge. -/
@[simp] theorem State.placeCommand_rst (s : State) (c : Command) : (s.placeCommand c).inputs.rst = false := by
  cases h : s.host <;> simp [State.placeCommand, State.inputs, h]

/-- The inputs depend on the edge number and the host's list only. -/
theorem State.inputs_congr (s t : State) (he : s.edge = t.edge) (hh : s.host = t.host) : s.inputs = t.inputs := by
  simp only [State.inputs, he, hh]

end Sys2Proof.Machine
end

