-- ==== Sys2Proof/Laws/Machine.lean ====
section
/-! SUPPORT. Said once: everything a completion can do, and everything one clock edge can do. Later proofs cite these and
never unfold `exec` or `step`. -/

namespace Sys2Proof.Machine

open Sys2Proof.Safety

/-- Everything `exec` can do: it completes the command with the code of its response, and with its result if there is
one (30_encoding.md R78, 60_exceptions.md R145). -/
theorem exec_complete (i : Instr) (s : State) :
    ∃ v, exec i s = .next (s.complete (responseOf i.command).err v) ∧
      ∀ r, (responseOf i.command).result = some r → v = r := by
  simp only [responseOf, decode_command]
  cases i with
  | modAdd a b m => exact ⟨_, rfl, by simp⟩
  | modMul a b m =>
    by_cases h : m = 0
    · simp only [exec, execModMul, if_pos h]
      exact ⟨_, rfl, by simp⟩
    · simp only [exec, execModMul, if_neg h]
      exact ⟨_, rfl, by simp⟩
  | modPow a b m =>
    by_cases h : m = 0
    · simp only [exec, execModPow, if_pos h]
      exact ⟨_, rfl, by simp⟩
    · simp only [exec, execModPow, if_neg h]
      exact ⟨_, rfl, by simp⟩
  | isPrime a b n =>
    by_cases h : n < 2
    · simp only [exec, execIsPrime, if_pos h]
      exact ⟨_, rfl, by simp⟩
    · simp only [exec, execIsPrime, if_neg h]
      exact ⟨_, rfl, by simp⟩

/-- A response has a result if and only if its code is OK; no code is 3 (30_encoding.md R71). -/
theorem responseOf_cases (c : Command) :
    (∃ r, responseOf c = ⟨0, some r⟩) ∨ responseOf c = ⟨1, none⟩ ∨ responseOf c = ⟨2, none⟩ := by
  simp only [responseOf]
  split
  · exact .inl ⟨_, rfl⟩
  · split
    · exact .inr (.inl rfl)
    · exact .inl ⟨_, rfl⟩
  · split
    · exact .inr (.inl rfl)
    · exact .inl ⟨_, rfl⟩
  · split
    · exact .inr (.inr rfl)
    · exact .inl ⟨_, rfl⟩

/-- A completed command holds the response of the command in flight. -/
theorem held_complete (s : State) (c : Command) (v : U64)
    (hv : ∀ r, (responseOf c).result = some r → v = r) :
    held (s.complete (responseOf c).err v) = responseOf c := by
  rcases responseOf_cases c with ⟨r, h⟩ | h | h <;> rw [h] at hv ⊢
  · simp [held, okCode, hv r rfl]
  · rfl
  · rfl

/-- A host that lists enough inputs, none of them a reset, gives no reset. -/
theorem noReset_of_host : ∀ (k : Nat) (s : State), k ≤ s.host.length → (∀ p ∈ s.host, p.rst = false) → noReset k s
  | 0, _, _, _ => trivial
  | k + 1, s, hk, hp => by
    cases hs : s.host with
    | nil => simp [hs] at hk
    | cons p rest =>
      rw [hs] at hk hp
      refine ⟨?_, noReset_of_host k s.tick ?_ ?_⟩
      · rw [State.inputs, hs]
        exact hp p List.mem_cons_self
      · simpa [hs] using hk
      · intro q hq
        rw [State.tick_host, hs] at hq
        exact hp q (List.mem_cons_of_mem _ hq)

/-- Everything one rising edge can do (10_state.md R33 to R36, 70_reset_and_hazards.md R167). -/
inductive EdgeCase (s : State) : State → Prop
  | reset : s.inputs.rst = true → EdgeCase s s.resetEdge
  | powerOn : s.inputs.rst = false → s.resetDone = false → EdgeCase s s.powerOnEdge
  | accept : s.inputs.rst = false → s.resetDone = true → s.phase = .idle → s.inputs.cmdValid = true →
      EdgeCase s (s.accept s.inputs.cmd)
  | idle : s.inputs.rst = false → s.resetDone = true → s.phase = .idle → s.inputs.cmdValid = false →
      EdgeCase s s.tick
  | complete (v : U64) : s.inputs.rst = false → s.resetDone = true → s.phase = .busy → s.left = 0 →
      (∀ r, (responseOf s.command).result = some r → v = r) →
      EdgeCase s (s.complete (responseOf s.command).err v)
  | wait : s.inputs.rst = false → s.resetDone = true → s.phase = .busy → s.left ≠ 0 → EdgeCase s s.wait
  | take : s.inputs.rst = false → s.resetDone = true → s.phase = .resp → s.inputs.rspReady = true →
      EdgeCase s s.takeResponse
  | hold : s.inputs.rst = false → s.resetDone = true → s.phase = .resp → s.inputs.rspReady = false →
      EdgeCase s s.tick

/-- The inversion of `step`. -/
theorem step_cases {s t : State} (h : step s = .next t) : EdgeCase s t := by
  unfold step at h
  by_cases hr : s.inputs.rst = true
  · rw [if_pos hr] at h
    cases h
    exact .reset hr
  · rw [if_neg hr] at h
    rw [Bool.not_eq_true] at hr
    by_cases hd : s.resetDone = true
    · rw [if_pos hd] at h
      split at h
      · next hp =>
        cases h
        cases hv : s.inputs.cmdValid with
        | true => rw [State.idleEdge, if_pos hv]; exact .accept hr hd hp hv
        | false => rw [State.idleEdge, if_neg (by rw [hv]; decide)]; exact .idle hr hd hp hv
      · next hp =>
        by_cases hl : s.left = 0
        · obtain ⟨v, hv, hres⟩ := exec_complete s.command.decode s
          rw [command_decode] at hv hres
          rw [if_pos hl, hv] at h
          cases h
          exact .complete v hr hd hp hl hres
        · rw [if_neg hl] at h
          cases h
          exact .wait hr hd hp hl
      · next hp =>
        cases h
        cases hv : s.inputs.rspReady with
        | true => rw [State.respEdge, if_pos hv]; exact .take hr hd hp hv
        | false => rw [State.respEdge, if_neg (by rw [hv]; decide)]; exact .hold hr hd hp hv
    · rw [if_neg hd] at h
      cases h
      exact .powerOn hr (by simpa using hd)

end Sys2Proof.Machine
end

