-- ==== Sys2Proof/Laws/PerInstr.lean ====
section
/-! SUPPORT. The family of statements about every instruction as syntax: its fields decode to it and it is well-formed
(30_encoding.md R66, R74). -/

namespace Sys2Proof.Laws

/-- The opcode map reads back what it wrote, and the instruction is well-formed. -/
def OpcodeMap.Statement (i : Instr) : Prop := i.command.decode = i ∧ i.wellFormed = true

theorem OpcodeMap.modAdd (a b m : U64) : OpcodeMap.Statement (.modAdd a b m) := ⟨decode_command _, rfl⟩

theorem OpcodeMap.modMul (a b m : U64) : OpcodeMap.Statement (.modMul a b m) := ⟨decode_command _, rfl⟩

theorem OpcodeMap.modPow (a b m : U64) : OpcodeMap.Statement (.modPow a b m) := ⟨decode_command _, rfl⟩

theorem OpcodeMap.isPrime (a b n : U64) : OpcodeMap.Statement (.isPrime a b n) := ⟨decode_command _, rfl⟩

end Sys2Proof.Laws
end

