-- ==== Sys2Proof/Tests/Slice0.lean ====
section
/-! SUPPORT. The model's own tests: decoding, well-formedness, one step per command, the edges of the sequencer, and a
witness for every statement that has hypotheses. Expected values are those of 95_test_vectors.md; the id of the vector or
program is in each comment. -/

namespace Sys2Proof.Tests

open Sys2Proof.Machine Sys2Proof.Safety

/-! ### Decoding and encoding: words written out from 30_encoding.md R65, R66 -/

/-- A1. -/
theorem test_decode_modAdd :
    decodeTableWord 200 0x0_0000000000000005_0000000000000007_000000000000000A = some (.modAdd 5 7 10) := by decide

/-- M13. -/
theorem test_decode_modMul :
    decodeTableWord 200 0x1_123456789ABCDEF0_FEDCBA9876543210_FFFFFFFFFFFFFFC5 =
      some (.modMul 0x123456789ABCDEF0 0xFEDCBA9876543210 0xFFFFFFFFFFFFFFC5) := by decide

/-- W1. -/
theorem test_decode_modPow :
    decodeTableWord 200 0x2_0000000000000004_000000000000000D_00000000000001F1 = some (.modPow 4 13 497) := by decide

/-- The ignored operands example of section 2.4. -/
theorem test_decode_isPrime :
    decodeTableWord 200 0x3_FFFFFFFFFFFFFFFF_123456789ABCDEF0_0000000000000029 =
      some (.isPrime 0xFFFFFFFFFFFFFFFF 0x123456789ABCDEF0 41) := by decide

/-- The largest command word, and the smallest number that is none. -/
theorem test_decode_edges :
    decodeTableWord 200 (2 ^ 194 - 1) = some (.isPrime 0xFFFFFFFFFFFFFFFF 0xFFFFFFFFFFFFFFFF 0xFFFFFFFFFFFFFFFF) ∧
    decodeTableWord 200 (2 ^ 194) = none ∧ decodeTableWord 200 (2 ^ 200 - 1) = none := by decide

/-- The example of 30_encoding.md R70: the response to `MOD_MUL 7, 6, 10`; and P4 edge 14, an error code on top. -/
theorem test_response_word : responseWord 0 2 = 0x0_0000000000000002 ∧ responseWord 2 0 = 0x2_0000000000000000 := by decide

/-! ### Well-formedness: an ill-formed term for each check (30_encoding.md R75). An instruction has no check (R74). -/

theorem test_wf_modAdd_refuses_large_a : (AsmLine.modAdd (2 ^ 64) 0 1).wellFormed = false := by decide
theorem test_wf_modAdd_refuses_large_b : (AsmLine.modAdd 0 (2 ^ 64) 1).wellFormed = false := by decide
theorem test_wf_modAdd_refuses_large_m : (AsmLine.modAdd 0 0 (2 ^ 64)).wellFormed = false := by decide
theorem test_wf_modMul_refuses_large_a : (AsmLine.modMul (2 ^ 64) 0 1).wellFormed = false := by decide
theorem test_wf_modMul_refuses_large_b : (AsmLine.modMul 0 (2 ^ 64) 1).wellFormed = false := by decide
theorem test_wf_modMul_refuses_large_m : (AsmLine.modMul 0 0 (2 ^ 64)).wellFormed = false := by decide
theorem test_wf_modPow_refuses_large_a : (AsmLine.modPow (2 ^ 64) 0 1).wellFormed = false := by decide
theorem test_wf_modPow_refuses_large_b : (AsmLine.modPow 0 (2 ^ 64) 1).wellFormed = false := by decide
theorem test_wf_modPow_refuses_large_m : (AsmLine.modPow 0 0 (2 ^ 64)).wellFormed = false := by decide
theorem test_wf_isPrime_refuses_large_n : (AsmLine.isPrime (2 ^ 64)).wellFormed = false := by decide

/-- The largest literal fits; `IS_PRIME n` assembles with zeros in a and b (30_encoding.md R75). -/
theorem test_assemble :
    assemble (.modAdd (2 ^ 64 - 1) 1 0) = some (.modAdd 0xFFFFFFFFFFFFFFFF 1 0) ∧
    assemble (.isPrime 41) = some (.isPrime 0 0 41) ∧ assemble (.isPrime (2 ^ 64)) = none := by decide

/-! ### One step of each command -/

/-- The phase, code and result a step leaves. -/
def outcome (o : Host.Outcome State Fault Refusal) : Option (Phase × U2 × U64) :=
  match o with
  | .next t => some (t.phase, t.err, t.res)
  | .fault _ => none
  | .refused _ => none

/-- The phase and code a step leaves, for an error response, whose result no test may read. -/
def outcomeErr (o : Host.Outcome State Fault Refusal) : Option (Phase × U2) :=
  match o with
  | .next t => some (t.phase, t.err)
  | .fault _ => none
  | .refused _ => none

/-- The step that completes a command given by its packed word. -/
def completes (w : Nat) : Host.Outcome State Fault Refusal := step (State.reset.withFetchWord 200 w)

/-- A8: the exact sum is 2^64. -/
theorem test_modAdd_sum_of_65_bits :
    outcome (completes 0x0_8000000000000000_8000000000000000_FFFFFFFFFFFFFFFF) = some (.resp, 0, 1) := by decide

/-- A3: modulus zero is no error. -/
theorem test_modAdd_zero_modulus :
    outcome (completes 0x0_0000000000000003_0000000000000004_0000000000000000) = some (.resp, 0, 0) := by decide

/-- M13: generic 64-bit operands. -/
theorem test_modMul_generic :
    outcome (completes 0x1_123456789ABCDEF0_FEDCBA9876543210_FFFFFFFFFFFFFFC5) =
      some (.resp, 0, 0x50B76B7E000293C2) := by decide +kernel

/-- X2: modulus zero with zero factors is still an error. -/
theorem test_modMul_zero_modulus :
    outcomeErr (completes 0x1_0000000000000000_0000000000000000_0000000000000000) = some (.resp, 1) := by decide

/-- W1. -/
theorem test_modPow_trace :
    outcome (completes 0x2_0000000000000004_000000000000000D_00000000000001F1) = some (.resp, 0, 445) := by
  decide +kernel

/-- W7: exponent zero, modulus one (90_conflicts.md C1). -/
theorem test_modPow_zero_exponent_modulus_one :
    outcome (completes 0x2_0000000000000000_0000000000000000_0000000000000001) = some (.resp, 0, 0) := by decide

/-- Q14: 1681 = 41 * 41, base 2 is a witness after three squarings. -/
theorem test_isPrime_witness :
    outcome (completes 0x3_0000000000000000_0000000000000000_0000000000000691) = some (.resp, 0, 0) := by
  decide +kernel

/-- Q12 with ignored operands: 41 passes all 12 bases. -/
theorem test_isPrime_all_pass :
    outcome (completes 0x3_FFFFFFFFFFFFFFFF_123456789ABCDEF0_0000000000000029) = some (.resp, 0, 1) := by
  decide +kernel

/-! ### The edges of the sequencer (program P4) -/

/-- The inputs of an edge of P4. -/
def drive (rst valid : Bool) (i : Instr) (ready : Bool) : Inputs := ⟨rst, valid, i.command, ready⟩

/-- A state in a phase, with reset given, some registers and one listed input. -/
def during (p : Phase) (c : Command) (left : Nat) (err : U2) (res : U64) (inp : List Inputs) : State :=
  { (State.reset.latchCommand c) with phase := p, left := left, err := err, res := res, host := inp }

/-- What P4 shows of a state: phase, command registers, error and result registers. -/
def shown (o : Host.Outcome State Fault Refusal) : Option (Phase × Command × U2 × U64) :=
  match o with
  | .next t => some (t.phase, t.command, t.err, t.res)
  | .fault _ => none
  | .refused _ => none

/-- P4 edge 1: the accept. -/
theorem test_edge_accept :
    shown (step (during .idle ⟨3, 9, 9, 9⟩ 0 1 8 [drive false true (.modAdd 5 7 10) true])) =
      some (.busy, ⟨0, 5, 7, 10⟩, 1, 8) := by decide

/-- P4 edge 16: idle with no command. -/
theorem test_edge_idle :
    shown (step (during .idle ⟨3, 0, 0, 1⟩ 0 2 8 [drive false false (.modAdd 5 7 10) true])) =
      some (.idle, ⟨3, 0, 0, 1⟩, 2, 8) := by decide

/-- P4 edge 6: not finished; the command shown is ignored. -/
theorem test_edge_busy :
    shown (step (during .busy ⟨1, 7, 6, 10⟩ 2 0 2 [drive false true (.modAdd 1 1 1) true])) =
      some (.busy, ⟨1, 7, 6, 10⟩, 0, 2) := by decide

/-- P4 edge 11: complete. -/
theorem test_edge_complete :
    shown (step (during .busy ⟨1, 7, 6, 10⟩ 0 1 9 [drive false true (.modAdd 1 1 1) true])) =
      some (.resp, ⟨1, 7, 6, 10⟩, 0, 2) := by decide

/-- P4 edge 3: the response is held and the command shown is not accepted. -/
theorem test_edge_hold :
    shown (step (during .resp ⟨0, 5, 7, 10⟩ 0 0 2 [drive false true (.modMul 7 6 10) false])) =
      some (.resp, ⟨0, 5, 7, 10⟩, 0, 2) := by decide

/-- P4 edge 4: the response is taken and the command shown is not accepted at this edge. -/
theorem test_edge_take :
    shown (step (during .resp ⟨0, 5, 7, 10⟩ 0 0 2 [drive false true (.modMul 7 6 10) true])) =
      some (.idle, ⟨0, 5, 7, 10⟩, 0, 2) := by decide

/-- P4 edge 7: a reset in BUSY. -/
theorem test_edge_reset :
    (match step (during .busy ⟨1, 7, 6, 10⟩ 1 0 2 [drive true true (.modMul 7 6 10) true]) with
      | .next t => decide (t.phase = .idle) && t.resetDone && t.outputs.cmdReady && !t.outputs.rspValid
      | .fault _ => false
      | .refused _ => false) = true := by decide

/-- The host's fault of X1 is read off the response (93_implementation_defined.md U1). -/
theorem test_hostFault :
    hostFault (during .resp ⟨1, 3, 4, 0⟩ 0 1 77 []) = some .invalidModulus ∧
    hostFault (during .resp ⟨3, 0, 0, 1⟩ 0 2 77 []) = some .operandDomain ∧
    hostFault (during .resp ⟨1, 3, 4, 5⟩ 0 0 2 []) = none ∧
    hostFault (during .idle ⟨1, 3, 4, 0⟩ 0 1 77 []) = none := by decide

/-! ### Witnesses: a concrete state and operands for the hypotheses of each statement that has some -/

/-- The inputs of a host that asks nothing: no reset, no command, no response taken. -/
def quiet : Inputs := drive false false (.modAdd 0 0 0) false

theorem witness_DecodeAndEncodeAgree :
    (Instr.modAdd 1 2 3).wellFormed = true ∧ (0 : Nat) < 2 ^ 194 ∧ 2 ^ 194 - 1 < 2 ^ 194 ∧
    2 ^ 194 ≤ 2 ^ 194 ∧ 2 ^ 194 < 2 ^ 200 ∧ 2 ^ 194 ≤ 2 ^ 200 - 1 := by decide

theorem witness_ModAddIsExactSumModulo : (1 : U64) ≠ 0 ∧ (0xFFFFFFFFFFFFFFFF : U64) ≠ 0 := by decide

theorem witness_ModAddNeverLeaves64Bits :
    (10 : U64) ≠ 0 ∧ ((10 : U64) - 7 % 10 ≤ 5 % 10) ∧ ¬ ((10 : U64) - 5 % 10 ≤ 3 % 10) := by decide

theorem witness_ModMulIsExactProductModulo : (1 : U64) ≠ 0 ∧ (0xFFFFFFFFFFFFFFFF : U64) ≠ 0 := by decide

theorem witness_ModMulIterationCountCannotBeSeen :
    (10 : U64) ≠ 0 ∧ bitlen 0 ≤ 0 ∧ bitlen 6 ≤ 3 ∧ bitlen 6 ≤ 64 ∧ bitlen 0x8000000000000000 ≤ 64 := by decide

theorem witness_ModPowIsExactPowerModulo : (497 : U64) ≠ 0 ∧ (13 : U64) ≠ 0 := by decide

theorem witness_ModPowScanOrderCannotBeSeen :
    (497 : U64) ≠ 0 ∧ bitlen 0 ≤ 0 ∧ bitlen 13 ≤ 4 ∧ bitlen 13 ≤ 64 := by decide

/-- 41 is the smallest candidate that reaches step 2 (43_is_prime.md R131). -/
theorem witness_WhatTrialDivisionLeaves :
    2 ≤ (41 : U64).toNat ∧ trialDivision 41 baseTable = none ∧ trialDivision 0xFFFFFFFFFFFFFFC5 baseTable = none := by decide

theorem witness_DecompositionOfCandidateMinusOne :
    2 ≤ (4294967297 : U64).toNat ∧ trialDivision 4294967297 baseTable = none := by decide

theorem witness_BaseOrderCannotBeSeen : baseTable.reverse.Perm baseTable ∧ 2 ≤ (2 : U64).toNat :=
  ⟨List.reverse_perm baseTable, by decide⟩

theorem witness_ModMulCommandAnswers : (1 : U64) ≠ 0 := by decide

theorem witness_ModPowCommandAnswers : (1 : U64) ≠ 0 := by decide

theorem witness_IsPrimeCommandAnswers : 2 ≤ (2 : U64).toNat ∧ 2 ≤ (0xFFFFFFFFFFFFFFFF : U64).toNat := by decide

theorem witness_IsPrimeAnswersPrimeForEveryPrime :
    Nat.Prime (2 : U64).toNat ∧ Nat.Prime (41 : U64).toNat := by
  constructor <;> exact of_decide_eq_true rfl

theorem witness_IsPrimeDecidesTwoThreeAndEvenNumbers :
    2 ≤ (2 : U64).toNat ∧ 4 ≤ (4 : U64).toNat ∧ (4 : U64).toNat % 2 = 0 ∧
    4 ≤ (0xFFFFFFFFFFFFFFFE : U64).toNat ∧ (0xFFFFFFFFFFFFFFFE : U64).toNat % 2 = 0 := by decide

theorem witness_ErrorEntryWritesCodeAndPhaseOnly : (0 : U64).toNat < 2 ∧ (1 : U64).toNat < 2 := by decide

theorem witness_CompletionFrameOfEveryCommand :
    ∃ t, exec (.modAdd 5 7 10) State.reset = .next t := ⟨_, rfl⟩

/-- The completion edge of P4 edge 11, and its placed word. -/
theorem witness_StepRunsTheDecodedCommand :
    let s := during .busy ⟨1, 7, 6, 10⟩ 0 0 2 [quiet]
    s.inputs.rst = false ∧ s.resetDone = true ∧ s.phase = .busy ∧ s.left = 0 ∧ s.command.decode = .modMul 7 6 10 ∧
    (Instr.modMul 7 6 10).wellFormed = true ∧
    decodeTableWord 200 0x1_0000000000000007_0000000000000006_000000000000000A = some (.modMul 7 6 10) := by decide

theorem witness_IdleEdgeAcceptsOrHolds :
    let s := during .idle ⟨3, 9, 9, 9⟩ 0 1 8 [quiet]
    let s' := during .idle ⟨3, 9, 9, 9⟩ 0 1 8 [drive false true (.modAdd 5 7 10) true]
    (s.inputs.rst = false ∧ s.resetDone = true ∧ s.phase = .idle ∧ s.inputs.cmdValid = false) ∧
    (s'.inputs.rst = false ∧ s'.resetDone = true ∧ s'.phase = .idle ∧ s'.inputs.cmdValid = true) := by decide

theorem witness_BusyEdgeHoldsUntilFinished :
    let s := during .busy ⟨1, 7, 6, 10⟩ 2 0 2 [quiet]
    s.inputs.rst = false ∧ s.resetDone = true ∧ s.phase = .busy ∧ s.left ≠ 0 := by decide

theorem witness_RespEdgeHoldsOrIsTaken :
    let s := during .resp ⟨0, 5, 7, 10⟩ 0 0 2 [quiet]
    let s' := during .resp ⟨0, 5, 7, 10⟩ 0 0 2 [drive false true (.modMul 7 6 10) true]
    (s.inputs.rst = false ∧ s.resetDone = true ∧ s.phase = .resp ∧ s.err = 0 ∧ s.inputs.rspReady = false) ∧
    (s'.inputs.rst = false ∧ s'.resetDone = true ∧ s'.phase = .resp ∧ s'.inputs.rspReady = true) := by decide

/-- A reset edge in BUSY, and one before the first reset. -/
theorem witness_ResetEdgeLeadsToIdleFromAnywhere :
    (during .busy ⟨1, 7, 6, 10⟩ 1 0 2 [drive true true (.modMul 7 6 10) true]).inputs.rst = true ∧
    ({ State.reset with phase := .resp, resetDone := false, host := [drive true false (.modAdd 0 0 0) true] } :
      State).inputs.rst = true := by decide

/-- Two different states, one in BUSY and one before the first reset, whose reset edges the statement compares. -/
theorem witness_ResetEdgeForgetsTheStateBefore :
    let s := during .busy ⟨1, 7, 6, 10⟩ 1 0 2 [drive true true (.modMul 7 6 10) true]
    let s' : State := { during .resp ⟨0, 5, 7, 10⟩ 0 3 9 [drive true false (.modAdd 0 0 0) false] with resetDone := false }
    s.inputs.rst = true ∧ s'.inputs.rst = true ∧ s.edge = s'.edge ∧ s.host.tail = s'.host.tail ∧ s ≠ s' := by decide

theorem witness_OutputsFollowThePhase :
    State.reset.resetDone = true ∧ (during .resp ⟨0, 5, 7, 10⟩ 0 0 2 []).phase = .resp ∧
    (during .resp ⟨0, 5, 7, 10⟩ 0 0 2 []).err = 0 := by decide

theorem witness_CommandRegistersHoldUntilTheNextAccept :
    let s := during .busy ⟨1, 7, 6, 10⟩ 2 0 2 [quiet]
    let s' := during .idle ⟨1, 7, 6, 10⟩ 0 0 2 [drive false true (.modAdd 5 7 10) true]
    (s.inputs.rst = false ∧ s.resetDone = true ∧ commandAccepted s = none) ∧
    (s'.inputs.rst = false ∧ s'.resetDone = true ∧ commandAccepted s' = some ⟨0, 5, 7, 10⟩) := by decide

/-- A host that presents P4's `MOD_ADD` and then gives no reset for as long as the command can take. -/
theorem witness_AcceptedCommandReachesItsResponse :
    let p := drive false true (.modAdd 5 7 10) false
    let lat := Config.latency 0 p.cmd + 1
    let s : State := { State.reset with host := List.replicate (lat + 1) p }
    s.resetDone = true ∧ s.phase = .idle ∧ s.inputs.cmdValid = true ∧
      lat = Config.latency s.edge s.inputs.cmd + 1 ∧ noReset (lat + 1) s := by
  refine ⟨rfl, rfl, rfl, rfl, noReset_of_host _ _ ?_ ?_⟩
  · exact le_of_eq List.length_replicate.symm
  · intro q hq
    rw [List.eq_of_mem_replicate hq]
    rfl

theorem witness_ResponseIsHeldUntilTaken :
    let s := during .resp ⟨0, 5, 7, 10⟩ 0 0 2 [quiet, quiet]
    s.resetDone = true ∧ s.phase = .resp ∧ noReset 2 s ∧ notTaken 2 s :=
  ⟨rfl, rfl, ⟨rfl, rfl, trivial⟩, ⟨rfl, rfl, trivial⟩⟩

/-- P4 edges 4 and 5. -/
theorem witness_NextCommandIsAcceptedRightAfterTheHandshake :
    let s := during .resp ⟨0, 5, 7, 10⟩ 0 0 2 [drive false true (.modMul 7 6 10) true, drive false true (.modMul 7 6 10) false]
    s.resetDone = true ∧ s.phase = .resp ∧ noReset 2 s ∧ s.inputs.rspReady = true ∧ s.tick.inputs.cmdValid = true :=
  ⟨rfl, rfl, ⟨rfl, rfl, trivial⟩, rfl, rfl⟩

/-- The response of P4 after edge 2, and its completion edge. -/
theorem witness_EveryStepKeepsTheInvariant :
    let s := during .busy ⟨0, 5, 7, 10⟩ 0 0 0 [quiet]
    Inv s ∧ ∃ t, step s = .next t :=
  ⟨⟨rfl, fun h => absurd h (by decide)⟩, ⟨_, rfl⟩⟩

/-- One state in RESP for each clause: a reduced result, `MOD_ADD` with m = 0, `IS_PRIME`. -/
theorem witness_ShownResponseIsReduced :
    let s := during .resp ⟨0, 5, 7, 10⟩ 0 0 2 []
    let s' := during .resp ⟨0, 3, 4, 0⟩ 0 0 0 []
    let s'' := during .resp ⟨3, 0, 0, 2⟩ 0 0 1 []
    (Inv s ∧ s.outputs.rspValid = true ∧ s.outputs.rspErr = 0 ∧ s.op ≠ 3 ∧ s.rm ≠ 0) ∧
    (Inv s' ∧ s'.outputs.rspValid = true ∧ s'.outputs.rspErr = 0 ∧ s'.op ≠ 3 ∧ s'.rm = 0) ∧
    (Inv s'' ∧ s''.outputs.rspValid = true ∧ s''.outputs.rspErr = 0 ∧ s''.op = 3) := by
  refine ⟨⟨⟨rfl, fun _ => by decide⟩, by decide⟩, ⟨⟨rfl, fun _ => by decide⟩, by decide⟩,
    ⟨⟨rfl, fun _ => by decide⟩, by decide⟩⟩

theorem witness_ResponsesAnswerCommandsInOrder :
    let s : State := { State.reset with host := [drive false true (.modAdd 5 7 10) true, quiet] }
    s.resetDone = true ∧ s.phase = .idle ∧ noReset 2 s ∧ accepted 1 s = [⟨0, 5, 7, 10⟩] :=
  ⟨rfl, rfl, ⟨rfl, rfl, trivial⟩, by decide⟩

theorem witness_IdleRegistersCannotBeSeen : State.reset.resetDone = true ∧ State.reset.phase = .idle := by decide

/-- The key of program P1. -/
theorem witness_ModPowRoundTripRecoversTheMessage :
    Nat.Prime 61 ∧ Nat.Prime 53 ∧ 61 ≠ 53 ∧ (3233 : U64).toNat = 61 * 53 ∧
    (17 : U64).toNat * (2753 : U64).toNat ≡ 1 [MOD Nat.lcm (61 - 1) (53 - 1)] ∧ (65 : U64).toNat < (3233 : U64).toNat := by
  refine ⟨by norm_num, by norm_num, by decide, by decide, ?_, by decide⟩
  simp only [Nat.ModEq, Nat.lcm]
  rfl

end Sys2Proof.Tests
end

section
/-! The round trip of 00_scope.md R13. Its arithmetic is Fermat's little theorem for each prime of the key, joined by the
Chinese remainder theorem; the block supplies the two exact powers of 42_mod_pow.md R110. -/

namespace Sys2Proof.Machine

/-- The completion edge of `MOD_POW` with a non-zero modulus. -/
theorem exec_modPow_of_ne_zero {n : U64} (hn : n ≠ 0) (a b : U64) (s : State) :
    exec (.modPow a b n) s = .next (s.complete okCode (modPow a b n)) :=
  if_neg hn

/-- A power of a power, both modulo n, is the power with the product of the exponents (42_mod_pow.md R110 twice). -/
theorem modPow_modPow_toNat {n : U64} (hn : n ≠ 0) (m e d : U64) :
    (modPow (modPow m e n) d n).toNat = m.toNat ^ (e.toNat * d.toNat) % n.toNat := by
  rw [modPow_toNat hn, modPow_toNat hn, ← Nat.pow_mod, ← pow_mul]

/-- An exponent that is 1 modulo p - 1 changes no residue modulo p, a multiple of p included. -/
theorem pow_modEq_self_of_prime {p k : ℕ} (hp : p.Prime) (hpos : 0 < k) (hk : k ≡ 1 [MOD p - 1]) (m : ℕ) :
    m ^ k ≡ m [MOD p] := by
  have hdvd : p - 1 ∣ k - 1 := (Nat.modEq_iff_dvd' hpos).mp hk.symm
  have hint := Int.ModEq.pow_eq_pow hp hdvd hpos one_pos m
  rw [pow_one] at hint
  exact_mod_cast hint

/-- Distinct p and q rule out p = q = 2, the one case in which 0 would be 1 modulo lcm(p - 1, q - 1). -/
theorem pos_of_modEq_one_lcm {p q k : ℕ} (hpq : p ≠ q) (hk : k ≡ 1 [MOD Nat.lcm (p - 1) (q - 1)]) :
    0 < k := by
  rcases Nat.eq_zero_or_pos k with rfl | hpos
  · have hone : Nat.lcm (p - 1) (q - 1) ∣ 1 := Nat.modEq_zero_iff_dvd.mp hk.symm
    have hp1 := Nat.dvd_one.mp ((Nat.dvd_lcm_left _ _).trans hone)
    have hq1 := Nat.dvd_one.mp ((Nat.dvd_lcm_right _ _).trans hone)
    omega
  · exact hpos

/-- An exponent that is 1 modulo lcm(p - 1, q - 1) changes no residue modulo p * q (the keys of 00_scope.md R11). -/
theorem pow_modEq_self_of_prime_mul_prime {p q k : ℕ} (hp : p.Prime) (hq : q.Prime) (hpq : p ≠ q)
    (hk : k ≡ 1 [MOD Nat.lcm (p - 1) (q - 1)]) (m : ℕ) : m ^ k ≡ m [MOD p * q] := by
  have hpos := pos_of_modEq_one_lcm hpq hk
  rw [← Nat.modEq_and_modEq_iff_modEq_mul ((Nat.coprime_primes hp hq).mpr hpq)]
  exact ⟨pow_modEq_self_of_prime hp hpos (hk.of_dvd (Nat.dvd_lcm_left _ _)) m,
    pow_modEq_self_of_prime hq hpos (hk.of_dvd (Nat.dvd_lcm_right _ _)) m⟩

/-- Settles O42: the two completions compute `m ^ (e * d) % n`, which is `m` for the keys of 00_scope.md R11. -/
theorem modPowRoundTripRecoversTheMessage : Obligations.ModPowRoundTripRecoversTheMessage := by
  intro p q m e d n hp hq hpq hn hed hm s s'
  have hn0 : n ≠ 0 := by
    rintro rfl
    exact absurd hm (by simp)
  have hround : modPow (modPow m e n) d n = m := by
    apply BitVec.eq_of_toNat_eq
    have hpow := pow_modEq_self_of_prime_mul_prime hp hq hpq hed m.toNat
    rw [← hn] at hpow
    rw [modPow_modPow_toNat hn0]
    exact Eq.trans hpow (Nat.mod_eq_of_lt hm)
  exact ⟨_, _, exec_modPow_of_ne_zero hn0 m e s, rfl, exec_modPow_of_ne_zero hn0 _ d s', rfl, hround⟩

end Sys2Proof.Machine
end

section
/-! The sequencer of 10_state.md section 5: `step` as one equation per phase, the handshakes read off the ports, and the
statements about a single edge. -/

namespace Sys2Proof.Machine

open Sys2Proof.Safety

/-! ### The edge of each phase -/

theorem step_of_rst {s : State} (hr : s.inputs.rst = true) : step s = .next s.resetEdge := by
  simp [step, hr]

theorem step_of_idle {s : State} (hr : s.inputs.rst = false) (hd : s.resetDone = true) (hp : s.phase = .idle) :
    step s = .next s.idleEdge := by
  simp [step, hr, hd, hp]

theorem step_of_busy_finished {s : State} (hr : s.inputs.rst = false) (hd : s.resetDone = true) (hp : s.phase = .busy)
    (hl : s.left = 0) : step s = exec s.command.decode s := by
  simp [step, hr, hd, hp, hl]

theorem step_of_busy_waiting {s : State} (hr : s.inputs.rst = false) (hd : s.resetDone = true) (hp : s.phase = .busy)
    (hl : s.left ≠ 0) : step s = .next s.wait := by
  simp [step, hr, hd, hp, hl]

theorem step_of_resp {s : State} (hr : s.inputs.rst = false) (hd : s.resetDone = true) (hp : s.phase = .resp) :
    step s = .next s.respEdge := by
  simp [step, hr, hd, hp]

theorem step_of_powerOn {s : State} (hr : s.inputs.rst = false) (hd : s.resetDone = false) :
    step s = .next s.powerOnEdge := by
  simp [step, hr, hd]

theorem idleEdge_of_valid {s : State} (hv : s.inputs.cmdValid = true) : s.idleEdge = s.accept s.inputs.cmd := by
  simp [State.idleEdge, hv]

theorem idleEdge_of_not_valid {s : State} (hv : s.inputs.cmdValid = false) : s.idleEdge = s.tick := by
  simp [State.idleEdge, hv]

theorem respEdge_of_ready {s : State} (hv : s.inputs.rspReady = true) : s.respEdge = s.takeResponse := by
  simp [State.respEdge, hv]

theorem respEdge_of_not_ready {s : State} (hv : s.inputs.rspReady = false) : s.respEdge = s.tick := by
  simp [State.respEdge, hv]

/-- The completion edge, in terms of the response the command in flight must get. -/
theorem step_completes {s : State} (hr : s.inputs.rst = false) (hd : s.resetDone = true) (hp : s.phase = .busy)
    (hl : s.left = 0) :
    ∃ v, step s = .next (s.complete (responseOf s.command).err v) ∧
      held (s.complete (responseOf s.command).err v) = responseOf s.command := by
  obtain ⟨v, hexec, hres⟩ := exec_complete s.command.decode s
  rw [command_decode] at hexec hres
  exact ⟨v, (step_of_busy_finished hr hd hp hl).trans hexec, held_complete s _ v hres⟩

/-- No edge stops the machine. -/
theorem exists_step (s : State) : ∃ t, step s = .next t := by
  cases hr : s.inputs.rst with
  | true => exact ⟨_, step_of_rst hr⟩
  | false =>
    cases hd : s.resetDone with
    | false => exact ⟨_, step_of_powerOn hr hd⟩
    | true =>
      cases hp : s.phase with
      | idle => exact ⟨_, step_of_idle hr hd hp⟩
      | resp => exact ⟨_, step_of_resp hr hd hp⟩
      | busy =>
        by_cases hl : s.left = 0
        · obtain ⟨v, hv, -⟩ := step_completes hr hd hp hl
          exact ⟨_, hv⟩
        · exact ⟨_, step_of_busy_waiting hr hd hp hl⟩

/-- Every edge has the next number. -/
theorem EdgeCase.edge_eq {s t : State} (h : EdgeCase s t) : t.edge = s.edge + 1 := by
  cases h <;> rfl

/-- Every edge uses up one of the host's inputs. -/
theorem EdgeCase.host_eq {s t : State} (h : EdgeCase s t) : t.host = s.host.tail := by
  cases h <;> rfl

/-! ### The outputs and the two handshakes -/

theorem cmdReady_iff {s : State} (hd : s.resetDone = true) : s.outputs.cmdReady = true ↔ s.phase = .idle := by
  cases hp : s.phase <;> simp [State.outputs, hd, hp]

theorem rspValid_iff {s : State} (hd : s.resetDone = true) : s.outputs.rspValid = true ↔ s.phase = .resp := by
  cases hp : s.phase <;> simp [State.outputs, hd, hp]

theorem rspErr_of_resp {s : State} (hd : s.resetDone = true) (hp : s.phase = .resp) : s.outputs.rspErr = s.err := by
  simp [State.outputs, hd, hp]

theorem rspResult_of_ok {s : State} (hd : s.resetDone = true) (hp : s.phase = .resp) (he : s.err = okCode) :
    s.outputs.rspResult = s.res := by
  simp [State.outputs, hd, hp, he]

/-- 10_state.md R22: the command handshake happens in IDLE only. -/
theorem commandAccepted_eq {s : State} (hd : s.resetDone = true) :
    commandAccepted s =
      if s.inputs.rst = false ∧ s.inputs.cmdValid = true ∧ s.phase = .idle then some s.inputs.cmd else none := by
  simp only [commandAccepted, cmdReady_iff hd]

/-- 10_state.md R23: the response handshake happens in RESP only, and takes what `ERR` and `RES` hold. -/
theorem responseTaken_eq {s : State} (hd : s.resetDone = true) :
    responseTaken s =
      if s.inputs.rst = false ∧ s.phase = .resp ∧ s.inputs.rspReady = true then some (held s) else none := by
  simp only [responseTaken, rspValid_iff hd]
  split
  · next h =>
    obtain ⟨-, hp, -⟩ := h
    rw [rspErr_of_resp hd hp, held]
    split
    · next he => rw [rspResult_of_ok hd hp he]
    · rfl
  · rfl

theorem commandAccepted_of_rst {s : State} (hr : s.inputs.rst = true) : commandAccepted s = none := by
  simp [commandAccepted, hr]

theorem responseTaken_of_rst {s : State} (hr : s.inputs.rst = true) : responseTaken s = none := by
  simp [responseTaken, hr]

/-! ### Statements about one edge -/

/-- A number that decodes is decoded from the fields `withFetchWord` places. -/
theorem decode_ofWord_of_decodeTableWord {nbits w : Nat} {i : Instr} (h : decodeTableWord nbits w = some i) :
    (Command.ofWord (BitVec.ofNat 194 (w % 2 ^ nbits))).decode = i := by
  unfold decodeTableWord decodeWord at h
  by_cases hw : w % 2 ^ nbits < 2 ^ 194
  · rw [if_pos hw] at h
    exact Option.some.inj h
  · rw [if_neg hw] at h
    cases h

/-- Settles O25: in BUSY with no wait left `step` is `exec`, and `placeCommand` makes such a state. -/
theorem stepRunsTheDecodedCommand : Obligations.StepRunsTheDecodedCommand := by
  constructor
  · rintro s i hr hd hp hl rfl -
    exact step_of_busy_finished hr hd hp hl
  · intro s nbits w i h
    rw [← decode_ofWord_of_decodeTableWord h]
    exact step_of_busy_finished (s.placeCommand_rst _) rfl rfl rfl

/-- Settles O26. -/
theorem idleEdgeAcceptsOrHolds : Obligations.IdleEdgeAcceptsOrHolds := by
  intro s hr hd hp
  rw [step_of_idle hr hd hp]
  constructor <;> intro hv
  · rw [idleEdge_of_not_valid hv]
    rfl
  · rw [idleEdge_of_valid hv]
    exact ⟨_, rfl⟩

/-- Settles O27. -/
theorem busyEdgeHoldsUntilFinished : Obligations.BusyEdgeHoldsUntilFinished :=
  fun _ hr hd hp hl => step_of_busy_waiting hr hd hp hl

/-- Settles O28: the outputs in RESP, and the two branches of `respEdge`. -/
theorem respEdgeHoldsOrIsTaken : Obligations.RespEdgeHoldsOrIsTaken := by
  intro s hr hd hp
  have hnone : commandAccepted s = none := by simp [commandAccepted_eq hd, hp]
  refine ⟨(rspValid_iff hd).mpr hp, rspErr_of_resp hd hp, rspResult_of_ok hd hp, hnone, ?_⟩
  rw [step_of_resp hr hd hp]
  constructor <;> intro hv
  · rw [respEdge_of_not_ready hv]
    rfl
  · rw [respEdge_of_ready hv]
    rfl

/-- Settles O29: `resetEdge` is IDLE, and both handshakes need `rst = 0`. -/
theorem resetEdgeLeadsToIdleFromAnywhere : Obligations.ResetEdgeLeadsToIdleFromAnywhere := by
  intro s hr
  exact ⟨_, step_of_rst hr, rfl, rfl, (cmdReady_iff rfl).mpr rfl, rfl,
    commandAccepted_of_rst hr, responseTaken_of_rst hr⟩

/-- Settles O31. -/
theorem resetStateIsIdleAndReady : Obligations.ResetStateIsIdleAndReady :=
  ⟨rfl, (cmdReady_iff rfl).mpr rfl, rfl⟩

/-- Settles O32. -/
theorem outputsFollowThePhase : Obligations.OutputsFollowThePhase :=
  fun _ hd => ⟨cmdReady_iff hd, rspValid_iff hd, fun hp => ⟨rspErr_of_resp hd hp, rspResult_of_ok hd hp⟩⟩

/-- Settles O33: only the accept edge latches. -/
theorem commandRegistersHoldUntilTheNextAccept : Obligations.CommandRegistersHoldUntilTheNextAccept := by
  intro s hr hd
  obtain ⟨t, ht⟩ := exists_step s
  refine ⟨t, ht, ?_⟩
  rw [commandAccepted_eq hd]
  cases step_cases ht with
  | reset hr' => simp [hr] at hr'
  | powerOn _ hd' => simp [hd] at hd'
  | accept _ _ hp hv => simp [hr, hv, hp]
  | idle _ _ _ hv => simp [hv]
  | complete v _ _ hp => simp [hp]
  | wait _ _ hp => simp [hp]
  | take _ _ hp => simp [hp]
  | hold _ _ hp => simp [hp]

/-- Settles O22: both completions write the code of the command's response, and its result if it has one. -/
theorem responseDependsOnTheCommandOnly : Obligations.ResponseDependsOnTheCommandOnly := by
  intro i s s'
  obtain ⟨v, hv, hres⟩ := exec_complete i s
  obtain ⟨v', hv', hres'⟩ := exec_complete i s'
  refine ⟨_, _, hv, hv', rfl, fun hok => ?_⟩
  rw [State.complete_err] at hok
  rcases responseOf_cases i.command with ⟨r, h⟩ | h | h <;> rw [h] at hok hres hres'
  · exact (hres r rfl).trans (hres' r rfl).symm
  · exact absurd hok (by decide)
  · exact absurd hok (by decide)

end Sys2Proof.Machine
end

section
/-! Runs of the sequencer: the invariant (10_state.md R32, R38, R39), the commands and responses of a run in order, the
bound on a command's time in BUSY, and two runs that differ in registers no host can see. -/

namespace Sys2Proof.Machine

open Sys2Proof.Safety

/-! ### The invariant -/

/-- Outside RESP the invariant asks for a reset only. -/
theorem inv_of_phase_ne_resp {s : State} (hd : s.resetDone = true) (hp : s.phase ≠ .resp) : Inv s :=
  ⟨hd, fun h => absurd h hp⟩

/-- Settles O37. -/
theorem invariantHoldsAtReset : Obligations.InvariantHoldsAtReset :=
  inv_of_phase_ne_resp rfl (by decide)

/-- Settles O38: RESP is entered by a completion, which writes the response of the command in flight, and left
unchanged while the response is held. -/
theorem everyStepKeepsTheInvariant : Obligations.EveryStepKeepsTheInvariant := by
  rintro s t ⟨hd, hresp⟩ hstep
  cases step_cases hstep with
  | reset => exact inv_of_phase_ne_resp rfl (by simp)
  | powerOn _ hd' => simp [hd] at hd'
  | accept => exact inv_of_phase_ne_resp hd (by simp)
  | idle _ _ hp => exact inv_of_phase_ne_resp hd (by simp [hp])
  | complete v _ _ _ _ hres => exact ⟨hd, fun _ => held_complete s _ v hres⟩
  | wait _ _ hp => exact inv_of_phase_ne_resp hd (by simp [hp])
  | take => exact inv_of_phase_ne_resp hd (by simp)
  | hold _ _ hp => exact ⟨hd, fun _ => hresp hp⟩

/-! ### Unrolling a run by one edge -/

theorem observe_succ {α : Type} (event : State → Option α) (k : Nat) {s t : State} (h : step s = .next t) :
    observe event (k + 1) s = (event s).toList ++ observe event k t := by
  simp only [observe, h]

theorem run_succ (k : Nat) {s t : State} (h : step s = .next t) : core.run (k + 1) s = core.run k t := by
  have hcore : core.step s = .next t := h
  simp only [Host.Core.run, hcore]

/-- Whether a reset comes is the host's doing: the registers do not matter. -/
theorem noReset_congr : ∀ (k : Nat) {s t : State}, s.edge = t.edge → s.host = t.host → noReset k s → noReset k t
  | 0, _, _, _, _, _ => trivial
  | k + 1, s, t, he, hh, h =>
    ⟨State.inputs_congr s t he hh ▸ h.1, noReset_congr k (congrArg (· + 1) he) (congrArg List.tail hh) h.2⟩

theorem noReset_of_step {k : Nat} {s t : State} (h : step s = .next t) (hn : noReset k s.tick) : noReset k t :=
  noReset_congr k (step_cases h).edge_eq.symm (step_cases h).host_eq.symm hn

/-! ### Liveness -/

/-- From BUSY with `n` edges left to wait: BUSY for `n` edges more, then the response. -/
theorem busy_run_reaches_response (n : Nat) (s : State) (hl : s.left = n) (hd : s.resetDone = true)
    (hp : s.phase = .busy) (hn : noReset (n + 1) s) :
    (∀ j ≤ n, ∃ u, core.run j s = .next u ∧ State.phase u = .busy) ∧
      ∃ t, core.run (n + 1) s = .next t ∧ State.phase t = .resp ∧ held t = responseOf s.command := by
  induction n generalizing s with
  | zero =>
    obtain ⟨v, hstep, hheld⟩ := step_completes hn.1 hd hp hl
    refine ⟨fun j hj => ?_, _, run_succ 0 hstep, rfl, hheld⟩
    rw [Nat.le_zero.mp hj]
    exact ⟨s, rfl, hp⟩
  | succ n ih =>
    obtain ⟨hr, hrest⟩ := hn
    have hstep := step_of_busy_waiting hr hd hp (by omega)
    obtain ⟨hbusy, hdone⟩ := ih s.wait (by simp [hl]) hd hp (noReset_of_step hstep hrest)
    rw [run_succ (n + 1) hstep]
    refine ⟨fun j hj => ?_, hdone⟩
    cases j with
    | zero => exact ⟨s, rfl, hp⟩
    | succ j =>
      rw [run_succ j hstep]
      exact hbusy j (by omega)

/-- Settles O34: the accept draws the wait, and from there the run in BUSY is `busy_run_reaches_response`. -/
theorem acceptedCommandReachesItsResponse : Obligations.AcceptedCommandReachesItsResponse := by
  rintro s hd hp hv lat rfl ⟨hr, hrest⟩
  have hstep : step s = .next (s.accept s.inputs.cmd) := by
    rw [step_of_idle hr hd hp, idleEdge_of_valid hv]
  obtain ⟨hbusy, hdone⟩ :=
    busy_run_reaches_response _ (s.accept s.inputs.cmd) rfl hd rfl (noReset_of_step hstep hrest)
  rw [run_succ _ hstep]
  refine ⟨fun j h1 hj => ?_, hdone⟩
  obtain ⟨i, rfl⟩ := Nat.exists_eq_add_of_le' h1
  rw [run_succ i hstep]
  exact hbusy i (Nat.le_of_succ_le_succ hj)

/-! ### Responses answer commands in order -/

/-- The command accepted whose response is not taken yet. -/
def inFlight (s : State) : Option Command := if s.phase = .idle then none else some s.command

theorem inFlight_of_idle {s : State} (hp : s.phase = .idle) : inFlight s = none := if_pos hp

theorem inFlight_of_ne_idle {s : State} (hp : s.phase ≠ .idle) : inFlight s = some s.command := if_neg hp

/-- One edge of the account: what was in flight and what is accepted is what is answered now and what is in flight
afterwards, in this order. -/
theorem step_balances {s t : State} (hinv : Inv s) (hr : s.inputs.rst = false) (hstep : step s = .next t) :
    ∃ answered : List Command,
      (inFlight s).toList ++ (commandAccepted s).toList = answered ++ (inFlight t).toList ∧
      (responseTaken s).toList = answered.map responseOf := by
  obtain ⟨hd, hresp⟩ := hinv
  rw [commandAccepted_eq hd, responseTaken_eq hd]
  cases step_cases hstep with
  | reset hr' => simp [hr] at hr'
  | powerOn _ hd' => simp [hd] at hd'
  | accept _ _ hp hv => exact ⟨[], by simp [inFlight, hp, hr, hv]⟩
  | idle _ _ hp hv => exact ⟨[], by simp [inFlight, hp, hv]⟩
  | complete v _ _ hp => exact ⟨[], by simp [inFlight, hp]⟩
  | wait _ _ hp => exact ⟨[], by simp [inFlight, hp]⟩
  | take _ _ hp hv => exact ⟨[s.command], by simp [inFlight, hp, hr, hv, hresp hp]⟩
  | hold _ _ hp hv => exact ⟨[], by simp [inFlight, hp, hv]⟩

/-- The account of a whole run, from any state that meets the invariant. -/
theorem run_balances (k : Nat) (s : State) (hinv : Inv s) (hn : noReset k s) :
    ∃ served pending : List Command, (inFlight s).toList ++ accepted k s = served ++ pending ∧ pending.length ≤ 1 ∧
      responses k s = served.map responseOf := by
  induction k generalizing s with
  | zero => exact ⟨[], (inFlight s).toList, by simp [accepted, observe], Option.length_toList_le, rfl⟩
  | succ k ih =>
    obtain ⟨hr, hrest⟩ := hn
    obtain ⟨t, hstep⟩ := exists_step s
    obtain ⟨answered, hedge, htaken⟩ := step_balances hinv hr hstep
    obtain ⟨served, pending, hrun, hlen, hresponses⟩ :=
      ih t (everyStepKeepsTheInvariant s t hinv hstep) (noReset_of_step hstep hrest)
    refine ⟨answered ++ served, pending, ?_, hlen, ?_⟩
    · calc (inFlight s).toList ++ accepted (k + 1) s
          = ((inFlight s).toList ++ (commandAccepted s).toList) ++ accepted k t := by
            rw [accepted, observe_succ _ k hstep, List.append_assoc, accepted]
        _ = answered ++ ((inFlight t).toList ++ accepted k t) := by rw [hedge, List.append_assoc]
        _ = answered ++ served ++ pending := by rw [hrun, List.append_assoc]
    · rw [List.map_append, ← htaken, ← hresponses]
      exact observe_succ _ k hstep

/-- Settles O40: the account of a run that starts with nothing in flight. -/
theorem responsesAnswerCommandsInOrder : Obligations.ResponsesAnswerCommandsInOrder := by
  intro k s hd hp hn
  simpa [inFlight_of_idle hp] using run_balances k s (inv_of_phase_ne_resp hd (by simp [hp])) hn

/-! ### Two runs no host can tell apart -/

/-- What the coming edges depend on is the same in both states, and both meet the invariant. The command registers
count while a command is in flight only; `ERR` and `RES` count through the invariant only. -/
structure Alike (s t : State) : Prop where
  inv_left : Inv s
  inv_right : Inv t
  phase : s.phase = t.phase
  left : s.left = t.left
  edge : s.edge = t.edge
  host : s.host = t.host
  flight : inFlight s = inFlight t

theorem Alike.inputs {s t : State} (h : Alike s t) : s.inputs = t.inputs := State.inputs_congr s t h.edge h.host

theorem Alike.command {s t : State} (h : Alike s t) (hp : s.phase ≠ .idle) : s.command = t.command :=
  Option.some.inj <| by
    rw [← inFlight_of_ne_idle hp, ← inFlight_of_ne_idle (h.phase ▸ hp), h.flight]

theorem Alike.same_commandAccepted {s t : State} (h : Alike s t) : commandAccepted s = commandAccepted t := by
  rw [commandAccepted_eq h.inv_left.1, commandAccepted_eq h.inv_right.1, h.inputs, h.phase]

theorem Alike.same_responseTaken {s t : State} (h : Alike s t) : responseTaken s = responseTaken t := by
  obtain ⟨hds, hs⟩ := h.inv_left
  obtain ⟨hdt, ht⟩ := h.inv_right
  rw [responseTaken_eq hds, responseTaken_eq hdt, h.inputs, h.phase]
  split
  · next hc =>
    obtain ⟨-, hp, -⟩ := hc
    have hps := h.phase.trans hp
    rw [hs hps, ht hp, h.command (by simp [hps])]
  · rfl

/-- For each edge `s` can have, the same edge of `t`, with the same effect on phase, wait and command in flight. -/
theorem Alike.matching_step {s t s' : State} (h : Alike s t) (hs : step s = .next s') :
    ∃ t', step t = .next t' ∧ s'.phase = t'.phase ∧ s'.left = t'.left ∧ inFlight s' = inFlight t' := by
  have hd := h.inv_right.1
  have hphase := h.phase
  have hleft := h.left
  have hin := h.inputs
  cases step_cases hs with
  | reset hr => exact ⟨_, step_of_rst (hin ▸ hr), rfl, rfl, rfl⟩
  | powerOn _ hd' => simp [h.inv_left.1] at hd'
  | accept hr _ hp hv =>
    rw [hin] at hr hv ⊢
    refine ⟨_, step_of_idle hr hd (hphase ▸ hp), ?_⟩
    rw [idleEdge_of_valid hv]
    exact ⟨rfl, by simp [h.edge], by simp [inFlight]⟩
  | idle hr _ hp hv =>
    rw [hin] at hr hv
    refine ⟨_, step_of_idle hr hd (hphase ▸ hp), ?_⟩
    rw [idleEdge_of_not_valid hv]
    exact ⟨hphase, hleft, h.flight⟩
  | complete v hr _ hp hl =>
    have hcmd := h.command (by simp [hp])
    obtain ⟨w, ht, -⟩ := step_completes (hin ▸ hr) hd (hphase ▸ hp) (hleft ▸ hl)
    exact ⟨_, ht, rfl, hleft, by simp [inFlight, hcmd]⟩
  | wait hr _ hp hl =>
    exact ⟨_, step_of_busy_waiting (hin ▸ hr) hd (hphase ▸ hp) (hleft ▸ hl), hphase, by simp [hleft], h.flight⟩
  | take hr _ hp hv =>
    rw [hin] at hr hv
    refine ⟨_, step_of_resp hr hd (hphase ▸ hp), ?_⟩
    rw [respEdge_of_ready hv]
    exact ⟨rfl, hleft, rfl⟩
  | hold hr _ hp hv =>
    rw [hin] at hr hv
    refine ⟨_, step_of_resp hr hd (hphase ▸ hp), ?_⟩
    rw [respEdge_of_not_ready hv]
    exact ⟨hphase, hleft, h.flight⟩

/-- The simulation: alike states step to alike states. -/
theorem Alike.next {s t s' t' : State} (h : Alike s t) (hs : step s = .next s') (ht : step t = .next t') :
    Alike s' t' := by
  obtain ⟨u, hu, hphase, hleft, hflight⟩ := h.matching_step hs
  obtain rfl : u = t' := Host.Outcome.next.inj (hu.symm.trans ht)
  exact {
    inv_left := everyStepKeepsTheInvariant s s' h.inv_left hs
    inv_right := everyStepKeepsTheInvariant t u h.inv_right ht
    phase := hphase
    left := hleft
    edge := by rw [(step_cases hs).edge_eq, (step_cases ht).edge_eq, h.edge]
    host := by rw [(step_cases hs).host_eq, (step_cases ht).host_eq, h.host]
    flight := hflight }

theorem Alike.observe_eq {α : Type} {event : State → Option α}
    (hevent : ∀ {s t : State}, Alike s t → event s = event t) (k : Nat) {s t : State} (h : Alike s t) :
    observe event k s = observe event k t := by
  induction k generalizing s t with
  | zero => rfl
  | succ k ih =>
    obtain ⟨s', hs⟩ := exists_step s
    obtain ⟨t', ht⟩ := exists_step t
    rw [observe_succ event k hs, observe_succ event k ht, hevent h, ih (h.next hs ht)]

theorem alike_of_idle {s : State} (hd : s.resetDone = true) (hp : s.phase = .idle) (c : Command) (e : U2) (v : U64) :
    Alike { s.latchCommand c with err := e, res := v } s where
  inv_left := inv_of_phase_ne_resp hd (by simp [hp])
  inv_right := inv_of_phase_ne_resp hd (by simp [hp])
  phase := rfl
  left := rfl
  edge := rfl
  host := rfl
  flight := by simp [inFlight, hp]

/-- Settles O41: the two states are alike, and alike states show the same events. -/
theorem idleRegistersCannotBeSeen : Obligations.IdleRegistersCannotBeSeen := by
  intro k s c e v hd hp
  have h := alike_of_idle hd hp c e v
  exact ⟨h.observe_eq Alike.same_commandAccepted k, h.observe_eq Alike.same_responseTaken k⟩

end Sys2Proof.Machine
end

section
/-! The command word of 30_encoding.md section 2: `decodeTableWord` said once for a number that fits `CMDW` and once for one
that does not, and the packed word as a sum. -/

namespace Sys2Proof

/-- 30_encoding.md R74: nothing about an instruction can be ill-formed. -/
theorem Instr.wellFormed_eq_true (i : Instr) : i.wellFormed = true := by
  cases i <;> rfl

/-- A number that fits the 194 bits of `CMDW` is read field by field. -/
theorem decodeTableWord_of_lt {w : Nat} (hw : w < 2 ^ 194) :
    decodeTableWord 200 w = some (Command.ofWord (BitVec.ofNat 194 w)).decode := by
  have hmod : w % 2 ^ 200 = w := Nat.mod_eq_of_lt (by omega)
  rw [decodeTableWord, decodeWord, hmod, if_pos hw]

/-- A set bit above `CMDW[193]` is refused (log 13). -/
theorem decodeTableWord_of_ge {w : Nat} (hge : 2 ^ 194 ≤ w) (hlt : w < 2 ^ 200) : decodeTableWord 200 w = none := by
  rw [decodeTableWord, decodeWord, Nat.mod_eq_of_lt hlt, if_neg (Nat.not_lt.mpr hge)]

theorem decodeTableWord_encode (i : Instr) : decodeTableWord 200 (encode i).toNat = some i := by
  rw [decodeTableWord_of_lt (encode i).isLt, BitVec.ofNat_toNat, BitVec.setWidth_eq, encode, ofWord_word, decode_command]

theorem encode_decode_ofWord (w : BitVec 194) : encode (Command.ofWord w).decode = w := by
  rw [encode, command_decode, word_ofWord]

/-- Settles O3: packing and unpacking undo each other, and so do the two directions of the opcode map. -/
theorem decodeAndEncodeAgree : Obligations.DecodeAndEncodeAgree := by
  refine ⟨fun i _ => decodeTableWord_encode i, fun w hw => ?_, fun _ => decodeTableWord_of_ge⟩
  refine ⟨_, Instr.wellFormed_eq_true _, decodeTableWord_of_lt hw, ?_⟩
  rw [encode_decode_ofWord, BitVec.toNat_ofNat, Nat.mod_eq_of_lt hw]

/-- Concatenation is multiplication by a power of two and addition. -/
theorem toNat_append_eq_mul_add {v w : Nat} (x : BitVec v) (y : BitVec w) :
    (x ++ y).toNat = x.toNat * 2 ^ w + y.toNat := by
  rw [BitVec.toNat_append, ← Nat.shiftLeft_add_eq_or_of_lt y.isLt, Nat.shiftLeft_eq]

/-- 30_encoding.md R68, for the four port values of any command. -/
theorem word_toNat (c : Command) :
    c.word.toNat = c.op.toNat * 2 ^ 192 + c.a.toNat * 2 ^ 128 + c.b.toNat * 2 ^ 64 + c.m.toNat := by
  simp only [Command.word, toNat_append_eq_mul_add]
  omega

/-- Settles O2: `word_toNat` at the four opcodes. -/
theorem commandWordIsThePackedSum : Obligations.CommandWordIsThePackedSum :=
  ⟨fun _ _ _ => ⟨word_toNat _, word_toNat _, word_toNat _, word_toNat _⟩, word_toNat _⟩

/-- Settles O1: the words are closed numbers, and decoding them is computation. -/
theorem writtenOutWordsDecode : Obligations.WrittenOutWordsDecode := by
  unfold Obligations.WrittenOutWordsDecode
  decide

end Sys2Proof
end

section
/-! What a response can carry (30_encoding.md R71, R72, R73): `responseOf` read by opcode, then off the ports. -/

namespace Sys2Proof.Machine

open Sys2Proof.Safety

/-- Settles O24: every phase, with a reset, before the first reset, and at a completion edge. -/
theorem everyEdgeHasANextState : Obligations.EveryEdgeHasANextState :=
  exists_step

/-- 30_encoding.md R67: the completion of `IS_PRIME` reads its candidate only. -/
theorem exec_isPrime_congr (a b a' b' n : U64) (s : State) : exec (.isPrime a b n) s = exec (.isPrime a' b' n) s :=
  rfl

/-- Settles O23: the ignored fields do not enter `exec`, and the state does not enter the response (O22). -/
theorem isPrimeIgnoresItsFirstTwoOperands : Obligations.IsPrimeIgnoresItsFirstTwoOperands := by
  intro a b a' b' n s s'
  rw [exec_isPrime_congr a' b' a b n s']
  exact responseDependsOnTheCommandOnly (.isPrime a b n) s s'

/-- 30_encoding.md R72, R73: the range of a result `r` of the command `c`. -/
structure ResultInRange (c : Command) (r : U64) : Prop where
  reduced : c.op ≠ 3 → c.m ≠ 0 → r.toNat < c.m.toNat
  zero_modulus : c.op ≠ 3 → c.m = 0 → c.op = 0 ∧ r = 0
  verdict : c.op = 3 → r = 0 ∨ r = 1

/-- An arithmetic opcode with m ≥ 1 owes a reduced result only. -/
theorem resultInRange_of_lt {o : U2} {a b m r : U64} (ho : o ≠ 3) (hm : m ≠ 0) (hr : r.toNat < m.toNat) :
    ResultInRange ⟨o, a, b, m⟩ r :=
  ⟨fun _ _ => hr, fun _ h => absurd h hm, fun h => absurd h ho⟩

theorem resultInRange_modAdd (a b m : U64) : ResultInRange ⟨0, a, b, m⟩ (modAdd a b m) := by
  by_cases hm : m = 0
  · subst hm
    exact ⟨fun _ h => absurd rfl h, fun _ _ => ⟨rfl, modAdd_zero a b⟩, fun h => absurd h (by simp)⟩
  · exact resultInRange_of_lt (by decide) hm (modAdd_lt hm a b)

theorem resultInRange_isPrime (a b n : U64) (v : Verdict) : ResultInRange ⟨3, a, b, n⟩ (verdictResult v) := by
  refine ⟨fun h => absurd rfl h, fun h => absurd rfl h, fun _ => ?_⟩
  cases v with
  | composite => exact .inl rfl
  | prime => exact .inr rfl

/-- A response that is an error under `p` has a result only if `p` fails, and then its own. -/
theorem eq_of_ite_error_eq_ok {p : Prop} [Decidable p] {e : U2} {v r : U64}
    (h : (if p then Response.mk e none else ⟨0, some v⟩) = ⟨0, some r⟩) : ¬p ∧ v = r := by
  by_cases hp : p
  · simp [hp] at h
  · simpa [hp] using h

/-- The result of an OK response is in the range of its opcode. -/
theorem resultInRange_of_responseOf {c : Command} {r : U64} (h : responseOf c = ⟨0, some r⟩) : ResultInRange c r := by
  obtain ⟨o, a, b, m⟩ := c
  rcases opcode_cases o with rfl | rfl | rfl | rfl
  · obtain rfl : modAdd a b m = r := Option.some.inj (congrArg Response.result h)
    exact resultInRange_modAdd a b m
  · obtain ⟨hm, rfl⟩ := eq_of_ite_error_eq_ok h
    exact resultInRange_of_lt (by decide) hm (modMul_lt hm a b)
  · obtain ⟨hm, rfl⟩ := eq_of_ite_error_eq_ok h
    exact resultInRange_of_lt (by decide) hm (modPow_lt hm a b)
  · obtain ⟨-, rfl⟩ := eq_of_ite_error_eq_ok h
    exact resultInRange_isPrime a b m _

/-- 30_encoding.md R71: code 3 belongs to no response. -/
theorem responseOf_err_ne_three (c : Command) : (responseOf c).err ≠ 3 := by
  rcases responseOf_cases c with ⟨r, h⟩ | h | h <;> simp [h]

theorem held_of_ok {s : State} (he : s.err = okCode) : held s = ⟨okCode, some s.res⟩ := by
  rw [held, if_pos he, he]

/-- Settles O39: by the invariant the ports show the response of the latched command, whose result is in range. -/
theorem shownResponseIsReduced : Obligations.ShownResponseIsReduced := by
  rintro s ⟨hd, hinv⟩ hvalid
  have hp := (rspValid_iff hd).mp hvalid
  have hheld := hinv hp
  rw [rspErr_of_resp hd hp]
  refine ⟨?_, fun hok => ?_⟩
  · rw [show s.err = (responseOf s.command).err from congrArg Response.err hheld]
    exact responseOf_err_ne_three s.command
  · obtain ⟨hreduced, hzero, hverdict⟩ := resultInRange_of_responseOf (hheld.symm.trans (held_of_ok hok))
    rw [rspResult_of_ok hd hp hok]
    exact ⟨hreduced, hzero, hverdict⟩

end Sys2Proof.Machine
end

section
/-! `MOD_ADD` (40_mod_add.md): the steps of `mod_add` one by one (R88), its exact value (R89), its completion (R86), and
the frame of every completion. -/

namespace Sys2Proof.Machine

/-! ### The steps of `mod_add` -/

/-- The pseudocode of 40_mod_add.md R85 past its test of the modulus. -/
theorem modAdd_of_ne_zero {m : U64} (hm : m ≠ 0) (a b : U64) :
    modAdd a b m = if m - b % m ≤ a % m then a % m - (m - b % m) else a % m + b % m :=
  if_neg hm

/-- The reduced operands `a1` and `b1`. -/
theorem umod_toNat_lt {m : U64} (hm : m ≠ 0) (a : U64) : (a % m).toNat < m.toNat := by
  rw [BitVec.toNat_umod]
  exact Nat.mod_lt _ (toNat_pos hm)

/-- The threshold `t` is formed without a borrow. -/
theorem sub_umod_toNat {m : U64} (hm : m ≠ 0) (b : U64) : (m - b % m).toNat = m.toNat - (b % m).toNat :=
  BitVec.toNat_sub_of_le (BitVec.le_def.mpr (umod_toNat_lt hm b).le)

/-- The comparison with `t` decides, without forming `a1 + b1`, whether that sum is reduced. -/
theorem not_sub_umod_le_umod_iff {m : U64} (hm : m ≠ 0) (a b : U64) :
    ¬ m - b % m ≤ a % m ↔ (a % m).toNat + (b % m).toNat < m.toNat := by
  have hb := umod_toNat_lt hm b
  rw [BitVec.le_def, sub_umod_toNat hm]
  omega

/-- A reduced sum `a1 + b1` is formed without a carry. -/
theorem umod_add_umod_toNat {a b m : U64} (h : (a % m).toNat + (b % m).toNat < m.toNat) :
    (a % m + b % m).toNat = (a % m).toNat + (b % m).toNat :=
  BitVec.toNat_add_of_lt (h.trans m.isLt)

/-- 40_mod_add.md R88: the 64-bit steps are the same steps over unbounded integers. -/
theorem modAdd_toNat_eq_ite {m : U64} (hm : m ≠ 0) (a b : U64) :
    (modAdd a b m).toNat =
      if (a % m).toNat ≥ m.toNat - (b % m).toNat then (a % m).toNat - (m.toNat - (b % m).toNat)
      else (a % m).toNat + (b % m).toNat := by
  have ht := sub_umod_toNat hm b
  simp only [modAdd_of_ne_zero hm, ge_iff_le, ← ht, ← BitVec.le_def]
  split
  · next hle => exact BitVec.toNat_sub_of_le hle
  · next hgt => exact umod_add_umod_toNat ((not_sub_umod_le_umod_iff hm a b).mp hgt)

theorem modAdd_comm (a b m : U64) : modAdd a b m = modAdd b a m := by
  by_cases hm : m = 0
  · rw [hm, modAdd_zero, modAdd_zero]
  · apply BitVec.eq_of_toNat_eq
    rw [modAdd_toNat hm, modAdd_toNat hm, Nat.add_comm]

/-- Modulo 1 the only residue is 0. -/
theorem modAdd_one (a b : U64) : modAdd a b 1 = 0 :=
  BitVec.eq_of_toNat_eq (Nat.lt_one_iff.mp (modAdd_lt (by decide) a b))

/-- Settles O4: `modAdd_toNat` and what follows from it; the sum of 65 bits is a closed computation. -/
theorem modAddIsExactSumModulo : Obligations.ModAddIsExactSumModulo := by
  refine ⟨fun a b m hm => ?_, modAdd_one, modAdd_zero, by decide⟩
  refine ⟨modAdd_toNat hm a b, Nat.le_sub_one_of_lt (modAdd_lt hm a b), modAdd_comm a b m, ?_⟩
  simpa using modAdd_toNat hm a 0

/-- Settles O5: the values in the order in which R85 forms them. -/
theorem modAddNeverLeaves64Bits : Obligations.ModAddNeverLeaves64Bits := by
  intro a b m hm
  have ha := umod_toNat_lt hm a
  have hb := umod_toNat_lt hm b
  have ht := sub_umod_toNat hm b
  refine ⟨ha, hb, ht, by omega, by omega, fun hle => ?_, fun hgt => ?_, ?_⟩
  · rw [BitVec.toNat_sub_of_le hle]
    exact Nat.sub_add_cancel (BitVec.le_def.mp hle)
  · have hsum := (not_sub_umod_le_umod_iff hm a b).mp hgt
    exact ⟨umod_add_umod_toNat hsum, Nat.le_sub_one_of_lt hsum⟩
  · simpa only [BitVec.toNat_umod] using modAdd_toNat_eq_ite hm a b

/-! ### The completion -/

/-- The completion edge of `MOD_ADD`: no operand is an error (40_mod_add.md R86). -/
theorem exec_modAdd (a b m : U64) (s : State) :
    exec (.modAdd a b m) s = .next (s.complete okCode (modAdd a b m)) :=
  rfl

/-- Settles O13: the completion writes `modAdd a b m`, which R90 gives for m = 0 and R89 otherwise. -/
theorem modAddCommandAnswers : Obligations.ModAddCommandAnswers := by
  intro a b m s
  refine ⟨_, exec_modAdd a b m s, rfl, rfl, ?_⟩
  rw [State.complete_res]
  split
  · next hm =>
    subst hm
    exact congrArg BitVec.toNat (modAdd_zero a b)
  · next hm => exact modAdd_toNat hm a b

/-- A next state of `exec` is the completion with some code and some result. -/
theorem eq_complete_of_exec {i : Instr} {s t : State} (h : exec i s = .next t) : ∃ e v, t = s.complete e v := by
  obtain ⟨v, hv, -⟩ := exec_complete i s
  exact ⟨_, v, Host.Outcome.next.inj (h.symm.trans hv)⟩

/-- Settles O21: the frame of `State.complete`, which is all a command does. -/
theorem completionFrameOfEveryCommand : Obligations.CompletionFrameOfEveryCommand := by
  intro i s t h
  obtain ⟨e, v, rfl⟩ := eq_complete_of_exec h
  exact ⟨rfl, rfl, rfl, rfl, rfl, rfl, rfl, rfl, rfl⟩

end Sys2Proof.Machine
end

section
/-! `MOD_MUL` (41_mod_mul.md): the consequences of the exact product (R99), the iteration count that no result shows
(R100), and the completion (R96). -/

namespace Sys2Proof.Machine

/-! ### The exact product -/

/-- The product is commutative though the loop scans the bits of `b` only. -/
theorem modMul_comm {m : U64} (hm : m ≠ 0) (a b : U64) : modMul a b m = modMul b a m := by
  apply BitVec.eq_of_toNat_eq
  rw [modMul_toNat hm, modMul_toNat hm, Nat.mul_comm]

theorem modMul_one_right_toNat {m : U64} (hm : m ≠ 0) (a : U64) : (modMul a 1 m).toNat = a.toNat % m.toNat := by
  simpa using modMul_toNat hm a 1

/-- With `b = 0` the loop has no iteration (`bitlen(0) = 0`), so the accumulator keeps its starting value. -/
@[simp] theorem modMul_zero_right (a m : U64) : modMul a 0 m = 0 :=
  rfl

theorem modMul_zero_left {m : U64} (hm : m ≠ 0) (b : U64) : modMul 0 b m = 0 := by
  rw [modMul_comm hm, modMul_zero_right]

/-- Modulo 1 the only residue is 0. -/
theorem modMul_modulus_one (a b : U64) : modMul a b 1 = 0 :=
  BitVec.eq_of_toNat_eq (Nat.lt_one_iff.mp (modMul_lt (by decide) a b))

/-- Settles O6: `modMul_toNat` and what follows from it. -/
theorem modMulIsExactProductModulo : Obligations.ModMulIsExactProductModulo := by
  refine ⟨fun a b m hm => ?_, modMul_modulus_one⟩
  exact ⟨modMul_toNat hm a b, Nat.le_sub_one_of_lt (modMul_lt hm a b), modMul_comm hm a b,
    modMul_one_right_toNat hm a, modMul_zero_right a m, modMul_zero_left hm b⟩

/-! ### The iteration count -/

/-- Settles O7: every iteration count that covers the bits of `b` computes the exact product, and so does `bitlen(b)`,
the count of `mod_mul`. -/
theorem modMulIterationCountCannotBeSeen : Obligations.ModMulIterationCountCannotBeSeen := by
  intro a b m k hm hk
  apply BitVec.eq_of_toNat_eq
  rw [scanLoop_modAdd_toNat hm a b hk, modMul_toNat hm]

/-! ### The completion -/

/-- The completion edge of `MOD_MUL` with a non-zero modulus. -/
theorem exec_modMul_of_ne_zero {m : U64} (hm : m ≠ 0) (a b : U64) (s : State) :
    exec (.modMul a b m) s = .next (s.complete okCode (modMul a b m)) :=
  if_neg hm

/-- Settles O14: with m >= 1 the completion writes `modMul a b m`, which is the exact product modulo m. -/
theorem modMulCommandAnswers : Obligations.ModMulCommandAnswers := by
  intro a b m s hm
  exact ⟨_, exec_modMul_of_ne_zero hm a b s, rfl, rfl, modMul_toNat hm a b⟩

end Sys2Proof.Machine
end

section
/-! `MOD_POW` (42_mod_pow.md): the consequences of the exact power (R110, R111), the scan order and the iteration count
that no result shows (R112), and the completion (R108). -/

namespace Sys2Proof.Machine

open Sys2Proof.Safety

/-! ### The exact power -/

theorem modPow_one_right_toNat {m : U64} (hm : m ≠ 0) (a : U64) : (modPow a 1 m).toNat = a.toNat % m.toNat := by
  simpa using modPow_toNat hm a 1

/-- The base need not be reduced by the host: only its residue counts. -/
theorem modPow_umod_left {m : U64} (hm : m ≠ 0) (a b : U64) : modPow (a % m) b m = modPow a b m := by
  apply BitVec.eq_of_toNat_eq
  rw [modPow_toNat hm, modPow_toNat hm, BitVec.toNat_umod, ← Nat.pow_mod]

theorem modPow_zero_left {m : U64} (hm : m ≠ 0) {b : U64} (hb : b ≠ 0) : modPow 0 b m = 0 := by
  have hpow : (0 : Nat) ^ b.toNat = 0 := zero_pow (toNat_pos hb).ne'
  apply BitVec.eq_of_toNat_eq
  simp [modPow_toNat hm, hpow]

theorem modPow_one_left_toNat {m : U64} (hm : m ≠ 0) (b : U64) : (modPow 1 b m).toNat = 1 % m.toNat := by
  simpa using modPow_toNat hm 1 b

/-- The accumulator's starting value. -/
theorem one_umod_toNat (m : U64) : (1 % m).toNat = 1 % m.toNat :=
  BitVec.toNat_umod

/-- With `b = 0` the loop has no iteration, so the accumulator is returned as it starts (42_mod_pow.md R111), with the
base 0 too. -/
@[simp] theorem modPow_zero_right (a m : U64) : modPow a 0 m = 1 % m :=
  rfl

theorem modPow_zero_right_toNat (a m : U64) : (modPow a 0 m).toNat = 1 % m.toNat := by
  rw [modPow_zero_right, one_umod_toNat]

/-- Modulo 1 the only residue is 0, for the exponent 0 too (90_conflicts.md C1). -/
theorem modPow_modulus_one (a b : U64) : modPow a b 1 = 0 :=
  BitVec.eq_of_toNat_eq (Nat.lt_one_iff.mp (modPow_lt (by decide) a b))

/-- Settles O8: `modPow_toNat` and what follows from it. -/
theorem modPowIsExactPowerModulo : Obligations.ModPowIsExactPowerModulo := by
  refine ⟨fun a b m hm => ?_, modPow_modulus_one⟩
  exact ⟨modPow_toNat hm a b, Nat.le_sub_one_of_lt (modPow_lt hm a b), modPow_one_right_toNat hm a,
    (modPow_umod_left hm a b).symm, modPow_zero_left hm, modPow_one_left_toNat hm b, modPow_zero_right_toNat a m⟩

/-! ### The scan order and the iteration count -/

/-- One bit of the scan from the top: the square of the accumulator, times the base when the bit is set. -/
theorem squareMultiply_toNat {m : U64} (hm : m ≠ 0) (a b r : U64) (k : Nat) :
    (if b.getLsbD k then modMul (modMul r r m) a m else modMul r r m).toNat
      = r.toNat ^ 2 * a.toNat ^ (b.toNat / 2 ^ k % 2) % m.toNat := by
  rw [bit_toNat]
  rcases Nat.mod_two_eq_zero_or_one (b.toNat / 2 ^ k) with hbit | hbit <;>
    simp [hbit, modMul_toNat hm, pow_two]

/-- What the scan of the bits `k - 1, ..., 0` from the top computes: each of the `k` squarings doubles the exponent of the
accumulator, and the scanned bits write the exponent of the base. -/
theorem powHighToLow_toNat {m : U64} (hm : m ≠ 0) (a b : U64) (k : Nat) {r : U64} (hr : r.toNat < m.toNat) :
    (powHighToLow a b m k r).toNat = r.toNat ^ 2 ^ k * a.toNat ^ (b.toNat % 2 ^ k) % m.toNat := by
  induction k generalizing r with
  | zero => simp [powHighToLow, Nat.mod_one, Nat.mod_eq_of_lt hr]
  | succ k ih =>
    have hstep := squareMultiply_toNat hm a b r k
    have hexp : (r.toNat ^ 2 * a.toNat ^ (b.toNat / 2 ^ k % 2)) ^ 2 ^ k * a.toNat ^ (b.toNat % 2 ^ k)
        = r.toNat ^ 2 ^ (k + 1) * a.toNat ^ (b.toNat % 2 ^ (k + 1)) := by
      rw [Nat.mod_pow_succ]
      ring
    rw [powHighToLow, ih (hstep ▸ Nat.mod_lt _ (toNat_pos hm)), hstep, ← hexp, Nat.mul_mod, ← Nat.pow_mod,
      ← Nat.mul_mod]

/-- Settles O9: both variants compute the exact power, from the bottom for every iteration count that covers the bits of
`b` and from the top likewise. -/
theorem modPowScanOrderCannotBeSeen : Obligations.ModPowScanOrderCannotBeSeen := by
  intro a b m k hm hk
  have hbits : b.toNat % 2 ^ k = b.toNat := by simpa using bits_all b hk
  constructor
  · apply BitVec.eq_of_toNat_eq
    rw [scanLoop_modMul_toNat hm a b hk, modPow_toNat hm]
  · apply BitVec.eq_of_toNat_eq
    rw [powHighToLow_toNat hm a b k (umod_toNat_lt hm 1), modPow_toNat hm, hbits, one_umod_toNat,
      Nat.mul_mod, ← Nat.pow_mod, one_pow, ← Nat.mul_mod, one_mul]

/-! ### The completion -/

/-- Settles O15: with m >= 1 the completion writes `modPow a b m`, which is the exact power modulo m. -/
theorem modPowCommandAnswers : Obligations.ModPowCommandAnswers := by
  intro a b m s hm
  exact ⟨_, exec_modPow_of_ne_zero hm a b s, rfl, rfl, modPow_toNat hm a b⟩

end Sys2Proof.Machine
end

section
/-! `IS_PRIME` (43_is_prime.md): what trial division lets through (R126, R127), the decomposition of `n - 1` (R121), the
verdict over the integers and without the order of the bases (R119 to R123, R130), and the verdicts that follow from it:
every prime number (R129), and 2, 3 and the even numbers (R128). -/

namespace Sys2Proof.Machine

open Sys2Proof.Safety

/-! ### Step 1: trial division -/

/-- Step 1 gives no verdict if and only if no entry of the table divides the candidate; an entry divides itself. -/
theorem trialDivision_eq_none_iff {l : List U64} (hl : ∀ p ∈ l, Nat.Prime p.toNat) (n : U64) :
    trialDivision n l = none ↔ ∀ p ∈ l, ¬ p.toNat ∣ n.toNat := by
  rw [trialDivision_eq n l hl]
  by_cases hmem : n ∈ l
  · rw [if_pos hmem]
    exact iff_of_false (by simp) fun h => h n hmem dvd_rfl
  · simp [hmem, ← umod_eq_zero_iff]

theorem not_base_dvd_of_trialDivision_none {n : U64} (h : trialDivision n baseTable = none) {p : U64}
    (hp : p ∈ baseTable) : ¬ p.toNat ∣ n.toNat :=
  (trialDivision_eq_none_iff baseTable_prime n).mp h p hp

theorem odd_of_trialDivision_none {n : U64} (h : trialDivision n baseTable = none) : n.toNat % 2 = 1 :=
  Nat.two_dvd_ne_zero.mp (not_base_dvd_of_trialDivision_none h (p := 2) (by decide))

theorem baseTable_lt : ∀ p ∈ baseTable, p.toNat < 41 := by
  simp [baseTable]

/-- 43_is_prime.md R127: the skip of a base that is 0 modulo the candidate never fires, since the base is its own residue
there. -/
theorem base_umod_eq_self {n : U64} (h2 : 2 ≤ n.toNat) (h : trialDivision n baseTable = none) {p : U64}
    (hp : p ∈ baseTable) : p % n = p :=
  BitVec.umod_eq_of_lt (BitVec.lt_def.mpr ((baseTable_lt p hp).trans_le (trialDivision_none_ge h2 h)))

theorem base_ne_zero {p : U64} (hp : p ∈ baseTable) : p ≠ 0 := by
  intro h
  exact (baseTable_prime p hp).ne_zero (congrArg BitVec.toNat h)

/-- Settles O10: no entry of the table divides what step 1 lets through, and 41 is above every entry. -/
theorem whatTrialDivisionLeaves : Obligations.WhatTrialDivisionLeaves := by
  intro n h2 h
  refine ⟨odd_of_trialDivision_none h, trialDivision_none_ge h2 h, fun p hp => ?_⟩
  have hcop : Nat.Coprime p.toNat n.toNat :=
    (baseTable_prime p hp).coprime_iff_not_dvd.mpr (not_base_dvd_of_trialDivision_none h hp)
  rw [base_umod_eq_self h2 h hp]
  exact ⟨hcop.symm, rfl, base_ne_zero hp⟩

/-! ### Step 2: the decomposition -/

theorem ne_zero_of_two_le {n : U64} (h : 2 ≤ n.toNat) : n ≠ 0 := by
  rintro rfl
  simp at h

/-- A positive even number has a factor 2 to take out. -/
theorem ctz_pos_of_even {v : U64} (hv : v ≠ 0) (heven : v.toNat % 2 = 0) : 1 ≤ ctz v := by
  obtain ⟨-, -, hodd⟩ := ctz_spec hv
  by_contra hlt
  rw [Nat.lt_one_iff.mp (Nat.not_le.mp hlt), BitVec.ushiftRight_zero] at hodd
  omega

/-- Settles O11: `ctz_spec` at `n - 1`, which is even and not 0 because n is odd and at least 41. -/
theorem decompositionOfCandidateMinusOne : Obligations.DecompositionOfCandidateMinusOne := by
  intro n h2 h
  have hodd := odd_of_trialDivision_none h
  have hge := trialDivision_none_ge h2 h
  have hsub := sub_one_toNat (ne_zero_of_two_le h2)
  have heven : (n - 1).toNat % 2 = 0 := by omega
  have hge40 : 40 ≤ (n - 1).toNat := by omega
  have hne : n - 1 ≠ 0 := ne_zero_of_two_le (by omega)
  obtain ⟨hs, hdecomp, hd⟩ := ctz_spec hne
  exact ⟨hodd, hge, heven, hge40, hsub.symm.trans hdecomp, hd, ctz_pos_of_even hne heven, by omega, by omega⟩

/-! ### The verdict -/

/-- 43_is_prime.md R119 to R123 without an order: the verdict over a table of primes depends on its set of entries only. -/
theorem isPrimeOver_eq_prime_iff {l : List U64} (hl : ∀ p ∈ l, Nat.Prime p.toNat) (n : U64) :
    isPrimeOver l n = .prime ↔ n ∈ l ∨
      trialDivision n l = none ∧ ∀ p ∈ l, basePasses n ((n - 1) >>> ctz (n - 1)) (ctz (n - 1)) p = true := by
  have hstep1 := trialDivision_eq n l hl
  by_cases hmem : n ∈ l
  · rw [if_pos hmem] at hstep1
    simp [isPrimeOver, hstep1, hmem]
  · rw [if_neg hmem] at hstep1
    split at hstep1
    · simp [isPrimeOver, hstep1, hmem]
    · simp [isPrimeOver, hstep1, hmem, latch_eq, rounds_eq_prime]

theorem verdict_eq_of_prime_iff {v w : Verdict} (h : v = .prime ↔ w = .prime) : v = w := by
  cases v with
  | prime => exact (h.mp rfl).symm
  | composite =>
    cases w with
    | prime => exact h.mpr rfl
    | composite => rfl

/-- Settles O12: a permutation has the same entries, and the verdict depends on nothing else. -/
theorem baseOrderCannotBeSeen : Obligations.BaseOrderCannotBeSeen := by
  intro table n hperm _
  have hmem : ∀ p, p ∈ table ↔ p ∈ baseTable := fun p => hperm.mem_iff
  have hprime : ∀ p ∈ table, Nat.Prime p.toNat := fun p hp => baseTable_prime p ((hmem p).mp hp)
  apply verdict_eq_of_prime_iff
  rw [isPrime, isPrimeOver_eq_prime_iff hprime, isPrimeOver_eq_prime_iff baseTable_prime,
    trialDivision_eq_none_iff hprime, trialDivision_eq_none_iff baseTable_prime]
  simp only [hmem]

/-- For any decomposition of `n - 1`, the round of 43_is_prime.md R122 is the same condition. -/
theorem passesBase_iff {n d s : Nat} (hd : d % 2 = 1) (hn : n - 1 = d * 2 ^ s) (a : Nat) :
    PassesBase n a ↔ a ^ d % n = 1 ∨ ∃ j < s, a ^ (d * 2 ^ j) % n = n - 1 := by
  constructor
  · rintro ⟨d', s', hd', hn', h⟩
    obtain ⟨rfl, rfl⟩ := oddPart_unique hd hd' (hn.symm.trans hn')
    exact h
  · exact fun h => ⟨d, s, hd, hn, h⟩

/-- A round of step 3 is the Miller-Rabin round over the integers. -/
theorem basePasses_iff_passesBase {n : U64} (h2 : 2 ≤ n.toNat) (h : trialDivision n baseTable = none) {p : U64}
    (hp : p ∈ baseTable) :
    basePasses n ((n - 1) >>> ctz (n - 1)) (ctz (n - 1)) p = true ↔ PassesBase n.toNat p.toNat := by
  obtain ⟨-, -, -, -, hdecomp, hd, hs, -, -⟩ := decompositionOfCandidateMinusOne n h2 h
  have hbase : p % n ≠ 0 := (base_umod_eq_self h2 h hp).symm ▸ base_ne_zero hp
  rw [basePasses_iff (ne_zero_of_two_le h2) h2 hs hbase, passesBase_iff hd hdecomp]

/-- The verdict over the integers, for the entries of the table. -/
theorem isPrime_eq_prime_iff {n : U64} (h2 : 2 ≤ n.toNat) :
    isPrime n = .prime ↔
      n ∈ baseTable ∨ ∀ p ∈ baseTable, ¬ p.toNat ∣ n.toNat ∧ PassesBase n.toNat p.toNat := by
  rw [isPrime, isPrimeOver_eq_prime_iff baseTable_prime, forall₂_and,
    ← trialDivision_eq_none_iff baseTable_prime]
  refine or_congr_right (and_congr_right fun h => ?_)
  exact forall₂_congr fun p hp => basePasses_iff_passesBase h2 h hp

/-! ### The completion -/

theorem verdictResult_eq_one_or_zero (v : Verdict) : verdictResult v = 1 ∨ verdictResult v = 0 := by
  cases v <;> simp [verdictResult]

theorem verdictResult_eq_one_iff (v : Verdict) : verdictResult v = 1 ↔ v = .prime := by
  cases v <;> simp [verdictResult]

/-- The completion edge of `IS_PRIME` with a candidate in its domain. -/
theorem exec_isPrime_of_two_le {n : U64} (h2 : 2 ≤ n.toNat) (a b : U64) (s : State) :
    exec (.isPrime a b n) s = .next (s.complete okCode (verdictResult (isPrime n))) :=
  if_neg (Nat.not_lt.mpr h2)

/-- The base table as natural numbers. -/
theorem baseTable_map_toNat : baseTable.map BitVec.toNat = [2, 3, 5, 7, 11, 13, 17, 19, 23, 29, 31, 37] :=
  rfl

/-- Settles O16: the verdict over the integers, with the entries of the table written as natural numbers. -/
theorem isPrimeCommandAnswers : Obligations.IsPrimeCommandAnswers := by
  intro a b n s h2
  refine ⟨_, exec_isPrime_of_two_le h2 a b s, rfl, rfl, verdictResult_eq_one_or_zero _, ?_⟩
  rw [State.complete_res, verdictResult_eq_one_iff, isPrime_eq_prime_iff h2, ← baseTable_map_toNat,
    List.mem_map_of_injective BitVec.toNat_injective, List.forall_mem_map]

/-! ### Prime numbers -/

/-- In a ring without zero divisors, repeated squaring reaches 1 from 1 or through -1 only. -/
theorem eq_one_or_exists_sq_eq_neg_one {R : Type} [Ring R] [NoZeroDivisors R] {x : R} {s : Nat}
    (h : x ^ 2 ^ s = 1) : x = 1 ∨ ∃ j < s, x ^ 2 ^ j = -1 := by
  induction s with
  | zero => exact .inl (by simpa using h)
  | succ s ih =>
    rw [pow_succ, pow_mul] at h
    rcases sq_eq_one_iff.mp h with hone | hneg
    · exact (ih hone).imp_right fun ⟨j, hj, hx⟩ => ⟨j, by omega, hx⟩
    · exact .inr ⟨s, by omega, hneg⟩

theorem mod_eq_one_iff_cast_eq_one {n : Nat} (hn : 1 < n) (k : Nat) : k % n = 1 ↔ (k : ZMod n) = 1 := by
  have h := ZMod.natCast_eq_natCast_iff' k 1 n
  rw [Nat.cast_one, Nat.mod_eq_of_lt hn] at h
  exact h.symm

theorem mod_eq_sub_one_iff_cast_eq_neg_one {n : Nat} (hn : 0 < n) (k : Nat) :
    k % n = n - 1 ↔ (k : ZMod n) = -1 := by
  have hcast : ((n - 1 : Nat) : ZMod n) = -1 := by simp [Nat.cast_sub hn]
  rw [← hcast, ZMod.natCast_eq_natCast_iff', Nat.mod_eq_of_lt (Nat.sub_lt hn one_pos)]

/-- A prime number passes the round of every base it does not divide: by Fermat `a ^ (d * 2 ^ s)` is 1 modulo n, and
modulo a prime the only square roots of 1 are 1 and -1. -/
theorem passesBase_of_prime {n a : Nat} (hn : n.Prime) (ha : ¬ n ∣ a) : PassesBase n a := by
  have : Fact n.Prime := ⟨hn⟩
  obtain ⟨s, d, hd, hdecomp⟩ := Nat.exists_eq_two_pow_mul_odd (Nat.sub_ne_zero_of_lt hn.one_lt)
  have hfermat : ((a : ZMod n) ^ d) ^ 2 ^ s = 1 := by
    rw [← pow_mul, mul_comm, ← hdecomp]
    exact ZMod.pow_card_sub_one_eq_one fun h => ha ((ZMod.natCast_eq_zero_iff a n).mp h)
  refine ⟨d, s, Nat.odd_iff.mp hd, hdecomp.trans (mul_comm _ _), ?_⟩
  simp only [mod_eq_one_iff_cast_eq_one hn.one_lt, mod_eq_sub_one_iff_cast_eq_neg_one hn.pos, Nat.cast_pow, pow_mul]
  exact eq_one_or_exists_sq_eq_neg_one hfermat

theorem isPrime_of_prime {n : U64} (hn : n.toNat.Prime) : isPrime n = .prime := by
  rw [isPrime_eq_prime_iff hn.two_le, or_iff_not_imp_left]
  intro hmem p hp
  have hne : p.toNat ≠ n.toNat := fun h => hmem (BitVec.eq_of_toNat_eq h ▸ hp)
  have hpp := baseTable_prime p hp
  exact ⟨fun h => hne ((Nat.prime_dvd_prime_iff_eq hpp hn).mp h),
    passesBase_of_prime hn fun h => hne ((Nat.prime_dvd_prime_iff_eq hn hpp).mp h).symm⟩

theorem exec_isPrime_of_prime {n : U64} (hn : n.toNat.Prime) (a b : U64) (s : State) :
    exec (.isPrime a b n) s = .next (s.complete okCode 1) := by
  rw [exec_isPrime_of_two_le hn.two_le, isPrime_of_prime hn, verdictResult]

/-- Settles O17: a prime number is an entry of the table, or no entry divides it and it passes every round. -/
theorem isPrimeAnswersPrimeForEveryPrime : Obligations.IsPrimeAnswersPrimeForEveryPrime :=
  fun a b _ s hn => ⟨_, exec_isPrime_of_prime hn a b s, rfl, rfl, rfl⟩

/-! ### Two, three and the even numbers -/

/-- An even candidate above 2 is divided by the entry 2 and is no entry itself. -/
theorem isPrime_of_even {n : U64} (h4 : 4 ≤ n.toNat) (heven : n.toNat % 2 = 0) : isPrime n = .composite := by
  have hmem : n ∉ baseTable := by
    intro hn
    rcases (baseTable_prime n hn).eq_two_or_odd with h | h <;> omega
  have hdvd : ∃ p ∈ baseTable, n % p = 0 :=
    ⟨2, by decide, (umod_eq_zero_iff n 2).mpr (Nat.dvd_of_mod_eq_zero heven)⟩
  rw [isPrime, isPrimeOver, trialDivision_eq n baseTable baseTable_prime, if_neg hmem, if_pos hdvd]

/-- Settles O18: 2 and 3 are prime numbers, and step 1 answers for every even number. -/
theorem isPrimeDecidesTwoThreeAndEvenNumbers : Obligations.IsPrimeDecidesTwoThreeAndEvenNumbers := by
  refine ⟨fun a b n s h2 => ?_, fun a b s => ?_, fun a b s => ?_, fun a b n s h4 heven => ?_⟩
  · exact ⟨_, exec_isPrime_of_two_le h2 a b s, rfl⟩
  · exact ⟨_, exec_isPrime_of_prime (n := 2) Nat.prime_two a b s, rfl, rfl⟩
  · exact ⟨_, exec_isPrime_of_prime (n := 3) Nat.prime_three a b s, rfl, rfl⟩
  · rw [exec_isPrime_of_two_le (by omega), isPrime_of_even h4 heven]
    exact ⟨_, rfl, rfl, rfl⟩

end Sys2Proof.Machine
end

section
/-! The exceptions (60_exceptions.md): the error code of the response to each command, and from it the table of R140 and the
error entry of R145. `exec_complete` says that a completion writes exactly this code. -/

namespace Sys2Proof.Machine

open Sys2Proof.Safety

/-! ### The code of each command -/

@[simp] theorem responseOf_modAdd_err (a b m : U64) : (responseOf (Instr.modAdd a b m).command).err = 0 :=
  rfl

@[simp] theorem responseOf_modMul_err (a b m : U64) :
    (responseOf (Instr.modMul a b m).command).err = if m = 0 then 1 else 0 :=
  apply_ite Response.err _ _ _

@[simp] theorem responseOf_modPow_err (a b m : U64) :
    (responseOf (Instr.modPow a b m).command).err = if m = 0 then 1 else 0 :=
  apply_ite Response.err _ _ _

@[simp] theorem responseOf_isPrime_err (a b n : U64) :
    (responseOf (Instr.isPrime a b n).command).err = if n < 2 then 2 else 0 :=
  apply_ite Response.err _ _ _

/-! ### The table of R140, read by its code -/

theorem responseOf_err_eq_one_iff (i : Instr) :
    (responseOf i.command).err = 1 ↔ ∃ a b, i = .modMul a b 0 ∨ i = .modPow a b 0 := by
  cases i with
  | modAdd a b m => simp
  | modMul a b m => simp
  | modPow a b m => simp
  | isPrime a b n => simp [ite_eq_iff]

theorem responseOf_err_eq_two_iff (i : Instr) :
    (responseOf i.command).err = 2 ↔ ∃ a b n, i = .isPrime a b n ∧ n.toNat < 2 := by
  cases i with
  | modAdd a b m => simp
  | modMul a b m => simp [ite_eq_iff]
  | modPow a b m => simp [ite_eq_iff]
  | isPrime a b n => simp [BitVec.lt_def]

theorem responseOf_err_eq_zero_iff (i : Instr) : (responseOf i.command).err = 0 ↔ PreconditionMet i := by
  cases i with
  | modAdd a b m => simp [PreconditionMet]
  | modMul a b m => simp [PreconditionMet]
  | modPow a b m => simp [PreconditionMet]
  | isPrime a b n => simp [PreconditionMet]

/-! ### The completion -/

/-- Settles O19: a completion writes the code of the command's response, and the table says which code that is. -/
theorem errorsAreExactlyTheTwoOfTheTable : Obligations.ErrorsAreExactlyTheTwoOfTheTable := by
  intro i s
  obtain ⟨v, hexec, -⟩ := exec_complete i s
  exact ⟨_, hexec, responseOf_err_eq_one_iff i, responseOf_err_eq_two_iff i, responseOf_err_ne_three i.command,
    responseOf_err_eq_zero_iff i⟩

/-- The completion of a command whose response has the code `e`. -/
theorem exec_of_responseOf_err {i : Instr} {e : U2} (he : (responseOf i.command).err = e) (s : State) :
    ∃ v, exec i s = .next (s.complete e v) := by
  obtain ⟨v, hexec, -⟩ := exec_complete i s
  exact ⟨v, he ▸ hexec⟩

/-- Settles O20: the three forms have the code 1 or 2, and `State.complete` writes `ERR`, `RES` and `PHASE` only. -/
theorem errorEntryWritesCodeAndPhaseOnly : Obligations.ErrorEntryWritesCodeAndPhaseOnly := by
  refine ⟨fun a b s => ?_, fun a b s => ?_, fun a b n s hn => ?_⟩
  · exact exec_of_responseOf_err ((responseOf_err_eq_one_iff _).mpr ⟨a, b, .inl rfl⟩) s
  · exact exec_of_responseOf_err ((responseOf_err_eq_one_iff _).mpr ⟨a, b, .inr rfl⟩) s
  · exact exec_of_responseOf_err ((responseOf_err_eq_two_iff _).mpr ⟨a, b, n, rfl, hn⟩) s

end Sys2Proof.Machine
end


section
/-! Reset and the hazards between commands (70_reset_and_hazards.md): what a reset edge depends on, the response that waits
for its host, and the command that follows a response at once. -/

namespace Sys2Proof.Machine

open Sys2Proof.Safety

/-! ### The reset edge -/

/-- The reset edge reads the number of the edge and the inputs still to come, and no register. -/
theorem State.resetEdge_congr (s t : State) (hedge : s.edge = t.edge) (htail : s.host.tail = t.host.tail) :
    s.resetEdge = t.resetEdge := by
  simp only [State.resetEdge, State.tick, hedge, htail]

/-- Settles O30: both edges are reset edges, and `resetEdge` reads no register. -/
theorem resetEdgeForgetsTheStateBefore : Obligations.ResetEdgeForgetsTheStateBefore := by
  intro s t hs ht hedge htail
  rw [step_of_rst hs, step_of_rst ht, State.resetEdge_congr s t hedge htail]

/-! ### The edge of a waiting response -/

theorem step_of_resp_not_ready {s : State} (hr : s.inputs.rst = false) (hd : s.resetDone = true) (hp : s.phase = .resp)
    (hv : s.inputs.rspReady = false) : step s = .next s.tick := by
  rw [step_of_resp hr hd hp, respEdge_of_not_ready hv]

theorem step_of_resp_ready {s : State} (hr : s.inputs.rst = false) (hd : s.resetDone = true) (hp : s.phase = .resp)
    (hv : s.inputs.rspReady = true) : step s = .next s.takeResponse := by
  rw [step_of_resp hr hd hp, respEdge_of_ready hv]

theorem commandAccepted_of_resp {s : State} (hd : s.resetDone = true) (hp : s.phase = .resp) :
    commandAccepted s = none := by
  simp [commandAccepted_eq hd, hp]

theorem responseTaken_of_not_ready {s : State} (hv : s.inputs.rspReady = false) : responseTaken s = none := by
  simp [responseTaken, hv]

theorem responseTaken_of_resp_ready {s : State} (hr : s.inputs.rst = false) (hd : s.resetDone = true)
    (hp : s.phase = .resp) (hv : s.inputs.rspReady = true) : responseTaken s = some (held s) := by
  simp [responseTaken_eq hd, hr, hp, hv]

/-- Settles O35, by induction on the number of edges: each of them only ticks. -/
theorem responseIsHeldUntilTaken : Obligations.ResponseIsHeldUntilTaken := by
  intro k s hd hp hn ht
  induction k generalizing s with
  | zero => exact ⟨rfl, rfl, s, rfl, hp, rfl, rfl⟩
  | succ k ih =>
    obtain ⟨hr, hnoReset⟩ := hn
    obtain ⟨hv, hnotTaken⟩ := ht
    have hstep := step_of_resp_not_ready hr hd hp hv
    obtain ⟨haccepted, hresponses, hrun⟩ := ih s.tick hd hp hnoReset hnotTaken
    rw [accepted, responses, observe_succ _ k hstep, observe_succ _ k hstep, run_succ k hstep,
      commandAccepted_of_resp hd hp, responseTaken_of_not_ready hv]
    exact ⟨haccepted, hresponses, hrun⟩

/-! ### The edge of an accept -/

theorem step_of_idle_valid {s : State} (hr : s.inputs.rst = false) (hd : s.resetDone = true) (hp : s.phase = .idle)
    (hv : s.inputs.cmdValid = true) : step s = .next (s.accept s.inputs.cmd) := by
  rw [step_of_idle hr hd hp, idleEdge_of_valid hv]

theorem commandAccepted_of_idle_valid {s : State} (hr : s.inputs.rst = false) (hd : s.resetDone = true)
    (hp : s.phase = .idle) (hv : s.inputs.cmdValid = true) : commandAccepted s = some s.inputs.cmd := by
  simp [commandAccepted_eq hd, hr, hp, hv]

theorem responseTaken_of_idle {s : State} (hd : s.resetDone = true) (hp : s.phase = .idle) : responseTaken s = none := by
  simp [responseTaken_eq hd, hp]

/-- The response handshake uses up an edge like any other: the next edge samples the same inputs as after a tick. -/
theorem State.takeResponse_inputs (s : State) : s.takeResponse.inputs = s.tick.inputs :=
  State.inputs_congr _ _ rfl rfl

/-- Settles O36: the first edge is the response handshake, which leads to IDLE, and the second is the accept. -/
theorem nextCommandIsAcceptedRightAfterTheHandshake : Obligations.NextCommandIsAcceptedRightAfterTheHandshake := by
  rintro s hd hp ⟨hr, hr', -⟩ hready hvalid
  rw [← s.takeResponse_inputs] at hr' hvalid ⊢
  have hd' : s.takeResponse.resetDone = true := hd
  have hp' : s.takeResponse.phase = .idle := rfl
  have htake := step_of_resp_ready hr hd hp hready
  have haccept := step_of_idle_valid hr' hd' hp' hvalid
  refine ⟨?_, ?_, _, (run_succ 1 htake).trans (run_succ 0 haccept), rfl, rfl⟩
  · rw [accepted, observe_succ _ 1 htake, observe_succ _ 0 haccept, commandAccepted_of_resp hd hp,
      commandAccepted_of_idle_valid hr' hd' hp' hvalid]
    rfl
  · rw [responses, observe_succ _ 1 htake, observe_succ _ 0 haccept, responseTaken_of_resp_ready hr hd hp hready,
      responseTaken_of_idle hd' hp']
    rfl

end Sys2Proof.Machine
end
